-- ==== Sys2Proof/Word.lean ====
section
/-! DEFINITION. The widths the spec counts in (00_scope.md R8, R9; 20_memory.md R48). Every value is
unsigned. -/
namespace Sys2Proof

/-- `u8`: one byte of buffer memory, an index into the table ROM, a status code (R9, R28, R40). -/
abbrev Byte := BitVec 8

/-- `u32`: LEN, WIN, POS, operand B and the host write port's index (R8, R48, R61). -/
abbrev U32 := BitVec 32

/-- `u64`: hashes, ROM words, results, OUT words and operand A (R8, R48, R61). -/
abbrev Word := BitVec 64

/-- One word of the command channel (30_encoding.md R60). -/
abbrev CmdWord := BitVec 128

end Sys2Proof
end

