-- ==== Sys2Proof/Syntax.lean ====
section
/-! DEFINITION. The commands of BZC-1, one constructor per row of spec/opcode_table.json
(30_encoding.md R63). Each operand has exactly the width of its field, so an operand that does not fit
cannot be written; the assembler, which reads numbers of any size, checks them (R74). -/
namespace Sys2Proof

/-- A decoded command. An illegal word is none of these: `decode` refuses it by name (R64, R65). -/
inductive Instr where
  /-- `CREATE L, W` (42_rolling_window.md R101). -/
  | create (l : U32) (w : Word)
  /-- `ROLL step` (R102). -/
  | roll (step : Word)
  /-- `BULKROLL stride` (43_bulk_roll.md R130). -/
  | bulkroll (stride : Word)
  /-- `RESET` (R104). -/
  | reset
  /-- `POSITION` (R105). -/
  | position
  /-- `SUM64` (R106). -/
  | sum64
  /-- `ONESHOT S, N` (41_oneshot.md R94). -/
  | oneshot (start : Word) (n : U32)
  /-- `LOOKUP b` (40_table_rom.md R84). -/
  | lookup (b : Byte)
deriving DecidableEq, Repr

end Sys2Proof
end

