-- ==== Sys2Proof/WellFormed.lean ====
section
/-! DEFINITION. The fields of a command word (30_encoding.md R61) and which of them make a legal command,
written from the table of R63 and the list of R64, not from the decoder. -/
namespace Sys2Proof

/-- The four fields of the format CMD (R61). -/
structure Cmd where
  /-- `CMD[7:0]`, the opcode. -/
  opc : BitVec 8
  /-- `CMD[31:8]`, reserved. -/
  rsv : BitVec 24
  /-- `CMD[63:32]`, operand B. -/
  b : U32
  /-- `CMD[127:64]`, operand A. -/
  a : Word
deriving DecidableEq, Repr

/-- The opcode is one R63 defines: 0x01 to 0x08. -/
def Cmd.opcodeDefined (c : Cmd) : Bool :=
  1 ≤ c.opc.toNat && c.opc.toNat ≤ 8

/-- The rows whose column A is "0" in R63: RESET, POSITION, SUM64, LOOKUP. -/
def Cmd.mustZeroA (c : Cmd) : Bool :=
  [0x04, 0x05, 0x06, 0x08].contains c.opc.toNat

/-- The rows whose column B is "0" in R63: ROLL, BULKROLL, RESET, POSITION, SUM64. -/
def Cmd.mustZeroB (c : Cmd) : Bool :=
  [0x02, 0x03, 0x04, 0x05, 0x06].contains c.opc.toNat

/-- R64 read positively: a command is legal when none of its four conditions holds. -/
def Cmd.wellFormed (c : Cmd) : Bool :=
  c.opcodeDefined
    && c.rsv == 0#24
    && (!c.mustZeroA || c.a == 0#64)
    && (!c.mustZeroB || c.b == 0#32)
    && (!(c.opc == 0x08#8) || c.b.toNat < 256)

end Sys2Proof
end

