-- ==== Sys2Proof/Decode.lean ====
section
/-! DEFINITION. Decoding (30_encoding.md R65), total on every 128-bit word and refusing by name, then the
encoder, written from the tables of R61 and R63. Decoding never depends on state. -/
namespace Sys2Proof

/-- Why a word decodes as Illegal: the four conditions of R64. All of them are answered alike, with
ILLEGAL_COMMAND (60_exceptions.md R168). -/
inductive Illegal where
  /-- `OPC` is 0x00 or in 0x09 to 0xFF. -/
  | reservedOpcode
  /-- `RSV` is not 0. -/
  | reservedField
  /-- An operand field that R63 marks "0" is not 0. -/
  | operandNotZero
  /-- LOOKUP with `B[31:8]` not 0. -/
  | lookupIndex
deriving DecidableEq, Repr

/-- R61: the fields of a command word. -/
def Cmd.ofWord (w : CmdWord) : Cmd where
  opc := w.extractLsb' 0 8
  rsv := w.extractLsb' 8 24
  b := w.extractLsb' 32 32
  a := w.extractLsb' 64 64

/-- R61: the word `A_B_RSV_OPC` with the given fields. -/
def Cmd.toWord (c : Cmd) : CmdWord :=
  c.a ++ c.b ++ c.rsv ++ c.opc

/-- R65, on the fields of the word. -/
def decodeCmd (c : Cmd) : Except Illegal Instr :=
  if c.rsv ≠ 0#24 then .error .reservedField
  else
    match c.opc.toNat with
    | 0x01 => .ok (.create c.b c.a)
    | 0x02 => if c.b = 0#32 then .ok (.roll c.a) else .error .operandNotZero
    | 0x03 => if c.b = 0#32 then .ok (.bulkroll c.a) else .error .operandNotZero
    | 0x04 => if c.a = 0#64 ∧ c.b = 0#32 then .ok .reset else .error .operandNotZero
    | 0x05 => if c.a = 0#64 ∧ c.b = 0#32 then .ok .position else .error .operandNotZero
    | 0x06 => if c.a = 0#64 ∧ c.b = 0#32 then .ok .sum64 else .error .operandNotZero
    | 0x07 => .ok (.oneshot c.a c.b)
    | 0x08 =>
      if c.a ≠ 0#64 then .error .operandNotZero
      else if c.b.extractLsb' 8 24 = 0#24 then .ok (.lookup (c.b.extractLsb' 0 8))
      else .error .lookupIndex
    | _ => .error .reservedOpcode

/-- R65: `decode : u128 -> Command + Illegal`. -/
def decode (w : CmdWord) : Except Illegal Instr :=
  decodeCmd (Cmd.ofWord w)

/-- The fields of a command's word (R63): its opcode and operands, every other field 0. -/
def Instr.cmd : Instr → Cmd
  | .create l w => { opc := 0x01, rsv := 0, b := l, a := w }
  | .roll step => { opc := 0x02, rsv := 0, b := 0, a := step }
  | .bulkroll stride => { opc := 0x03, rsv := 0, b := 0, a := stride }
  | .reset => { opc := 0x04, rsv := 0, b := 0, a := 0 }
  | .position => { opc := 0x05, rsv := 0, b := 0, a := 0 }
  | .sum64 => { opc := 0x06, rsv := 0, b := 0, a := 0 }
  | .oneshot start n => { opc := 0x07, rsv := 0, b := n, a := start }
  | .lookup b => { opc := 0x08, rsv := 0, b := b.setWidth 32, a := 0 }

/-- The word of a command. -/
def encode (i : Instr) : CmdWord :=
  i.cmd.toWord

/-- What `decode` reads from a table word: one command is one 128-bit word, carried whole on the
command channel (R60), so there are no further words to lay out. -/
def decodeTableWord (nbits w : Nat) : Option Instr :=
  match decode (BitVec.ofNat 128 (w % 2 ^ nbits)) with
  | .ok i => some i
  | .error _ => none

end Sys2Proof
end

