-- ==== Sys2Proof/Config.lean ====
section
/-! DEFINITION. The OPEN parameters of 00_scope.md R8, as constants without a body: nothing in Lean can
say what they are. They are only the values `State.reset` gives the fields `rom`, `bufCap` and
`outDepth` and `bulkImpl`; every rule reads the fields, so a claim about every state holds for every
parameter. -/
namespace Sys2Proof

/-- The two values of BULK_IMPL (00_scope.md R8): which implementation of BULKROLL a build uses. -/
inductive BulkImpl where
  /-- The portable path. -/
  | portable
  /-- The accelerated path. -/
  | accelerated
deriving DecidableEq, Repr, Inhabited

namespace Config

/-- `TABLE : Fin 256 -> u64` (40_table_rom.md R80; log entry 1). -/
opaque table : Vector Word 256

/-- `BUF_CAP`; thirty-two bits hold exactly its range 0 to 2^32 - 1 (20_memory.md R40; log entry 1). -/
opaque bufCap : U32

/-- `OUT_DEPTH - 1`, so that `OUT_DEPTH` is at least 1 (00_scope.md R8; log entry 1). -/
opaque outDepthLessOne : Nat

/-- `BULK_IMPL`, which no rule reads (43_bulk_roll.md R134; log entries 1, 16). -/
opaque bulkImpl : BulkImpl

end Config

end Sys2Proof
end

