-- ==== Sys2Proof/Machine/State.lean ====
section
/-! DEFINITION. The state of the block (10_state.md R20), the reasons a step can stop, and the state after
reset (10_state.md R34). -/
namespace Sys2Proof.Machine

/-- Why the machine stops with a fault. -/
inductive Fault where
  /-- Raised by a read of BUF at an index that is not below BUF_CAP, an address that does not exist
  (20_memory.md R40, R51). The bound checks of CREATE, ROLL, BULKROLL and ONESHOT keep every index in
  range while the cursor invariant holds (R52), so only a state no run reaches gets here. Safe: the
  model stops (log entry 5). -/
  | bufIndexOutOfRange (index : Nat)
deriving DecidableEq, Repr

/-- Why a step is refused. -/
inductive Refusal where
  /-- Raised by an arm of `exec` whose instruction has no meaning yet. Safe. No arm raises it now. -/
  | notModelled (mnemonic : String)
  /-- Raised by a command that reads a BUF byte the host has not written since reset: "a model must not
  give such a byte a value and refuses the launch" (70_reset_and_hazards.md R183;
  93_implementation_defined.md I7). Safe: the model stops (log entry 4). -/
  | unwrittenByte (index : Nat)
  /-- Raised by a host write into the live instance buffer, a move the host does not have (20_memory.md
  R46; 93_implementation_defined.md I8). Unsafe, as I8 says: the runs in which a host breaks its duty
  are missing (log entry 9). -/
  | liveBufferWrite (index : Nat)
deriving DecidableEq, Repr

/-- What the response channel holds (10_state.md R34; 70_reset_and_hazards.md R187). -/
inductive RspPhase where
  /-- No command has completed since reset: there is no response to read. -/
  | empty
  /-- The last completed command's response waits for the host. -/
  | held
  /-- The host has taken it, which lets the next command in. -/
  | taken
deriving DecidableEq, Repr

/-- One move of the host at a port of the block (20_memory.md R48; 70_reset_and_hazards.md R180). -/
inductive HostMove where
  /-- Present a word on the command channel (30_encoding.md R60). -/
  | command (w : CmdWord)
  /-- Write one byte of BUF (20_memory.md R45). -/
  | writeByte (index : U32) (value : Byte)
  /-- Take the word at the head of OUT (10_state.md R27). -/
  | takeOut
  /-- Take the response (70_reset_and_hazards.md R187). -/
  | takeResponse
  /-- Assert the block's reset input (70_reset_and_hazards.md R180). -/
  | blockReset
deriving DecidableEq, Repr

/-- A BULKROLL that waits for room in OUT (43_bulk_roll.md R135). -/
structure Bulk where
  /-- The words still to be emitted, in order. -/
  pending : List Word
  /-- The count it will answer with. -/
  count : Word
deriving DecidableEq, Repr

/-- BUF as a list of written bytes, addresses strictly rising. A byte not listed has no value. -/
abbrev Memory := List Host.Cell

/-- What a rule that may have to stop answers: a value, or the reason. -/
abbrev Result (α : Type) := Host.Outcome α Fault Refusal

/-- The state of the block (R20), its parameters (00_scope.md R8; log entry 1) and the host's moves to
come (log entry 6). -/
structure State where
  /-- `INST_VALID` (R21). -/
  instValid : Bool
  /-- `LEN` (R22). -/
  len : U32
  /-- `WIN` (R23). -/
  win : U32
  /-- `POS` (R24). -/
  pos : U32
  /-- `HASH` (R25). -/
  hash : Word
  /-- `OUT`, head first (R27). -/
  out : List Word
  /-- The BULKROLL in progress; none when no command is executing (43_bulk_roll.md R135). -/
  bulk : Option Bulk
  /-- `RSP_STATUS` (R28). -/
  rspStatus : Byte
  /-- `RSP_RESULT` (R28). -/
  rspResult : Word
  /-- Whether a response is held (70_reset_and_hazards.md R187). -/
  rspPhase : RspPhase
  /-- `BUF` (20_memory.md R40). -/
  buf : Memory
  /-- `BUF_CAP` (R40), a parameter. -/
  bufCap : U32
  /-- `ROM`, holding TABLE (20_memory.md R41), a parameter. -/
  rom : Vector Word 256
  /-- `OUT_DEPTH` (R27), a parameter. -/
  outDepth : Nat
  /-- `BULK_IMPL` (00_scope.md R8), a parameter that no rule reads (43_bulk_roll.md R134; log entry 16). -/
  bulkImpl : BulkImpl
  /-- The host's moves still to come, in its order. The model's own field. -/
  host : List HostMove
deriving DecidableEq, Repr

/-- The block right after reset (R34; 70_reset_and_hazards.md R180). The zeros of `len`, `win`, `pos`,
`hash` (log entry 2) and of the response registers (log entry 3) are the model's choice: the spec says
unspecified, and no command can read them. -/
def State.reset : State where
  instValid := false
  len := 0
  win := 0
  pos := 0
  hash := 0
  out := []
  bulk := none
  rspStatus := 0
  rspResult := 0
  rspPhase := .empty
  buf := []
  bufCap := Config.bufCap
  rom := Config.table
  outDepth := Config.outDepthLessOne + 1
  bulkImpl := Config.bulkImpl
  host := []

end Sys2Proof.Machine
end

