-- ==== Sys2Proof/Machine/Ops.lean ====
section
/-! DEFINITION. The named operations over memory, ROM and hashes: rotation (00_scope.md R10), BUF
(20_memory.md R40), the table ROM (R41), the one-shot hash (41_oneshot.md R90), one advance of the window
(42_rolling_window.md R100) and the output stream (43_bulk_roll.md R135). The block has no trap and so
no exception entry and no return from one (60_exceptions.md R172): a failure is the response `raise` of
Flags.lean. -/
namespace Sys2Proof.Machine

/-- Go on with the value if there is one; stop where the first part stops. -/
def Result.andThen {α β : Type} (r : Result α) (k : α → Result β) : Result β :=
  match r with
  | .next a => k a
  | .fault f => .fault f
  | .refused e => .refused e

/-- `rotl(x, r)`: left rotation by `r mod 64` bit positions (R10). -/
def rotl (x : Word) (r : Nat) : Word :=
  x.rotateLeft r

/-- The byte the host last wrote at `i`; none where it wrote nothing since reset. -/
def Memory.read : Memory → Nat → Option Byte
  | [], _ => none
  | (a, v) :: m, i => if a = i then some v else Memory.read m i

/-- Memory with `v` at `i`, in its canonical form. -/
def Memory.write : Memory → Nat → Byte → Memory
  | [], i, v => [(i, v)]
  | (a, u) :: m, i, v =>
    if i < a then (i, v) :: (a, u) :: m
    else if i = a then (i, v) :: m
    else (a, u) :: Memory.write m i v

/-- Every listed address is above `a`, and they strictly rise. -/
def Memory.risesFrom (a : Nat) : Memory → Bool
  | [] => true
  | (b, _) :: m => decide (a < b) && Memory.risesFrom b m

/-- The canonical form: addresses strictly rising. An unlisted byte has no value, so no entry can equal
what an unlisted address reads as. -/
def Memory.wf : Memory → Bool
  | [] => true
  | (a, _) :: m => Memory.risesFrom a m

/-- `MemRead(i, 1)`, written `BUF[i]` (00_scope.md R12; 20_memory.md R40). The only way a command reads BUF:
an index that does not exist faults (log entry 5), a byte the host never wrote is refused
(70_reset_and_hazards.md R183). -/
def readBuf (s : State) (i : Nat) : Result Byte :=
  if s.bufCap.toNat ≤ i then .fault (.bufIndexOutOfRange i)
  else
    match s.buf.read i with
    | some v => .next v
    | none => .refused (.unwrittenByte i)

/-- `BUF[i : i + n]` (00_scope.md R11). -/
def readRange (s : State) : Nat → Nat → Result (List Byte)
  | _, 0 => .next []
  | i, n + 1 =>
    Result.andThen (readBuf s i) fun b =>
      Result.andThen (readRange s (i + 1) n) fun bs => .next (b :: bs)

/-- `ROM[b] = TABLE(b)` (40_table_rom.md R80, R83). -/
def tableWord (rom : Vector Word 256) (b : Byte) : Word :=
  rom.get b.toFin

/-- `OneShotHash` (41_oneshot.md R90): of a sequence of length n the byte at index i is rotated by
`n - 1 - i`, which for the first byte is the length of what follows it. -/
def oneShotHash (rom : Vector Word 256) : List Byte → Word
  | [] => 0
  | c :: cs => rotl (tableWord rom c) cs.length ^^^ oneShotHash rom cs

/-- `OneShotHash(BUF[i : i + n])`, as the one-shot core computes it (R95). -/
def hashRange (s : State) (i n : Nat) : Result Word :=
  Result.andThen (readRange s i n) fun bs => .next (oneShotHash s.rom bs)

/-- The working copy of position and hash inside one command (10_state.md R33). It is no part of
`State`. -/
abbrev Working := Nat × Word

/-- `RollStep(p, h)` (42_rolling_window.md R100). -/
def rollStep (s : State) (c : Working) : Result Working :=
  Result.andThen (readBuf s c.1) fun leaving =>
    Result.andThen (readBuf s (c.1 + s.win.toNat)) fun entering =>
      .next (c.1 + 1,
        rotl c.2 1 ^^^ rotl (tableWord s.rom leaving) s.win.toNat ^^^ tableWord s.rom entering)

/-- `repeat n times: (p, h) := RollStep(p, h)` (R102, 43_bulk_roll.md R130). -/
def rollSteps (s : State) : Nat → Working → Result Working
  | 0, c => .next c
  | n + 1, c => Result.andThen (rollStep s c) fun c' => rollSteps s n c'

/-- The loop of BULKROLL (43_bulk_roll.md R130): the words it emits from the working copy `c`. The first
number bounds the loop; BULKROLL gives it `LEN - POS`, the bytes left, and every turn uses at least one, so
it runs out only where the loop's own test ends it as well (log entry 17). -/
def bulkWords (s : State) (stride : Nat) : Nat → Working → Result (List Word)
  | 0, c => .next [c.2]
  | fuel + 1, c =>
    if c.1 + stride + s.win.toNat > s.len.toNat then .next [c.2]
    else
      Result.andThen (rollSteps s stride c) fun c' =>
        Result.andThen (bulkWords s stride fuel c') fun ws => .next (c.2 :: ws)

end Sys2Proof.Machine
end

