-- ==== Sys2Proof/Machine/Operands.lean ====
section
/-! DEFINITION. The operand checks of the commands, on unbounded naturals: no sum wraps (00_scope.md R9;
30_encoding.md R62). -/
namespace Sys2Proof.Machine

/-- CREATE's first check, `L > BUF_CAP` (42_rolling_window.md R101). -/
def createOutOfRange (s : State) (l : U32) : Bool :=
  decide (l.toNat > s.bufCap.toNat)

/-- CREATE's second check, `W > L` (R101). -/
def windowTooLong (l : U32) (w : Word) : Bool :=
  decide (w.toNat > l.toNat)

/-- ROLL's check for the whole step count, `POS + step + WIN > LEN` (R102, R103). -/
def rollPastEnd (s : State) (step : Word) : Bool :=
  decide (s.pos.toNat + step.toNat + s.win.toNat > s.len.toNat)

/-- ONESHOT's check, `S + N > BUF_CAP` (41_oneshot.md R94). -/
def oneshotOutOfRange (s : State) (start : Word) (n : U32) : Bool :=
  decide (start.toNat + n.toNat > s.bufCap.toNat)

/-- `W[31:0]`, the part of the window operand that WIN holds (42_rolling_window.md R101). -/
def windowOperand (w : Word) : U32 :=
  w.setWidth 32

/-- `zext_64(v)` (00_scope.md R9; 42_rolling_window.md R105). -/
def zext64 (v : U32) : Word :=
  v.setWidth 64

end Sys2Proof.Machine
end

