-- ==== Sys2Proof/Machine/Flags.lean ====
section
/-! DEFINITION. Status codes, the response (30_encoding.md R66) and the updates of the registers that
commands make. The block has no condition codes (10_state.md R31): the status of the response is what an
instruction set's flags would be, and no command reads it. -/
namespace Sys2Proof.Machine

/-- The status codes of 60_exceptions.md R160. There is no name for 0x08 to 0xFF, which are never produced
(93_implementation_defined.md I17). -/
inductive Status where
  /-- The command succeeded. -/
  | ok
  /-- CREATE with `W > L` (R163). -/
  | windowTooLong
  /-- ROLL with `POS + step + WIN > LEN` (R164). -/
  | illegalRoll
  /-- BULKROLL with stride 0 (R165). -/
  | illegalStride
  /-- The host adapter's `Write`; never raised by the block (R166). -/
  | notWritable
  /-- A cursor command with no instance (R167). -/
  | noInstance
  /-- A word that decodes as Illegal (R168). -/
  | illegalCommand
  /-- CREATE with `L > BUF_CAP`, ONESHOT with `S + N > BUF_CAP` (R169). -/
  | outOfRange
deriving DecidableEq, Repr

/-- The numeric codes of R160. -/
def Status.code : Status → Byte
  | .ok => 0x00
  | .windowTooLong => 0x01
  | .illegalRoll => 0x02
  | .illegalStride => 0x03
  | .notWritable => 0x04
  | .noInstance => 0x05
  | .illegalCommand => 0x06
  | .outOfRange => 0x07

/-- `respond(status, result)`: the one response that ends every command (R66); the host has yet to take
it (70_reset_and_hazards.md R187). -/
def respond (e : Status) (result : Word) (s : State) : State :=
  { s with rspStatus := e.code, rspResult := result, rspPhase := .held }

/-- `raise E()`: the response (E, 0) and no other effect (60_exceptions.md R162). -/
def raise (e : Status) (s : State) : State :=
  respond e 0 s

/-- The five register writes of a successful CREATE (42_rolling_window.md R101). -/
def setInstance (l w : U32) (h : Word) (s : State) : State :=
  { s with instValid := true, len := l, win := w, pos := 0, hash := h }

/-- `POS <- p; HASH <- h`: the writes of ROLL and RESET (R102, R104). -/
def setCursor (p : U32) (h : Word) (s : State) : State :=
  { s with pos := p, hash := h }

/-- Emit the words `ws` of a BULKROLL that will answer `count`: into OUT, behind older words, as far as
OUT_DEPTH lets them; the response comes after the last of them, and until then the rest waits for the host
(10_state.md R27; 30_encoding.md R66; 43_bulk_roll.md R135; 70_reset_and_hazards.md R186; log entry 10). -/
def streamOut (ws : List Word) (count : Word) (s : State) : State :=
  if s.out.length + ws.length ≤ s.outDepth then
    respond .ok count { s with out := s.out ++ ws, bulk := none }
  else
    let room := s.outDepth - s.out.length
    { s with out := s.out ++ ws.take room, bulk := some { pending := ws.drop room, count := count } }

/-- What the host reads on the response channel: no response before the first command of a reset has
completed (70_reset_and_hazards.md R187), then the pair of the last completed command (10_state.md R28). -/
def readResponse (s : State) : Option (Byte × Word) :=
  match s.rspPhase with
  | .empty => none
  | .held => some (s.rspStatus, s.rspResult)
  | .taken => some (s.rspStatus, s.rspResult)

end Sys2Proof.Machine
end

