-- ==== Sys2Proof/Machine/BulkRoll.lean ====
section
/-! DEFINITION. `buzhash_bulk_roll_streamer`: the command BULKROLL (43_bulk_roll.md R130). One meaning for
both values of BULK_IMPL: no rule reads it (R134; log entry 16). -/
namespace Sys2Proof.Machine

/-- `BULKROLL stride` (R130): the hashes of the windows at POS, POS + stride, ..., on a read-only snapshot
of the cursor; the result is how many words it emits. -/
def execBulkroll (stride : Word) (s : State) : Host.Outcome State Fault Refusal :=
  if s.instValid = false then .next (raise .noInstance s)
  else if stride = 0#64 then .next (raise .illegalStride s)
  else
    Result.andThen
      (bulkWords s stride.toNat (s.len.toNat - s.pos.toNat) (s.pos.toNat, s.hash)) fun ws =>
        .next (streamOut ws (BitVec.ofNat 64 ws.length) s)

end Sys2Proof.Machine
end

