-- ==== Sys2Proof/Machine/OneShot.lean ====
section
/-! DEFINITION. `buzhash_oneshot_core`: the command ONESHOT (41_oneshot.md R94). -/
namespace Sys2Proof.Machine

/-- `ONESHOT S, N` (R94): reads BUF as the host last wrote it, never the cursor. -/
def execOneshot (start : Word) (n : U32) (s : State) : Host.Outcome State Fault Refusal :=
  if oneshotOutOfRange s start n then .next (raise .outOfRange s)
  else
    Result.andThen (hashRange s start.toNat n.toNat) fun h => .next (respond .ok h s)

end Sys2Proof.Machine
end

