-- ==== Sys2Proof/Machine/RollingWindow.lean ====
section
/-! DEFINITION. `buzhash_rolling_window_engine`: CREATE, ROLL, RESET, POSITION and SUM64
(42_rolling_window.md R101 to R106). Each check stands in the order of 60_exceptions.md R170. -/
namespace Sys2Proof.Machine

/-- `CREATE L, W` (R101). A failing CREATE leaves an existing instance as it was. -/
def execCreate (l : U32) (w : Word) (s : State) : Host.Outcome State Fault Refusal :=
  if createOutOfRange s l then .next (raise .outOfRange s)
  else if windowTooLong l w then .next (raise .windowTooLong s)
  else
    Result.andThen (hashRange s 0 w.toNat) fun h =>
      .next (respond .ok h (setInstance l (windowOperand w) h s))

/-- `ROLL step` (R102): one check for the whole advance, then `step` single-byte updates (R103). -/
def execRoll (step : Word) (s : State) : Host.Outcome State Fault Refusal :=
  if s.instValid = false then .next (raise .noInstance s)
  else if rollPastEnd s step then .next (raise .illegalRoll s)
  else
    Result.andThen (rollSteps s step.toNat (s.pos.toNat, s.hash)) fun c =>
      .next (respond .ok c.2 (setCursor (BitVec.ofNat 32 c.1) c.2 s))

/-- `RESET` (R104): the hash is recomputed from scratch. It is not the block reset (R182). -/
def execReset (s : State) : Host.Outcome State Fault Refusal :=
  if s.instValid = false then .next (raise .noInstance s)
  else
    Result.andThen (hashRange s 0 s.win.toNat) fun h =>
      .next (respond .ok h (setCursor 0 h s))

/-- `POSITION` (R105). -/
def execPosition (s : State) : Host.Outcome State Fault Refusal :=
  if s.instValid = false then .next (raise .noInstance s)
  else .next (respond .ok (zext64 s.pos) s)

/-- `SUM64` (R106). -/
def execSum64 (s : State) : Host.Outcome State Fault Refusal :=
  if s.instValid = false then .next (raise .noInstance s)
  else .next (respond .ok s.hash s)

end Sys2Proof.Machine
end

