-- ==== Sys2Proof/Machine/TableRom.lean ====
section
/-! DEFINITION. `buzhash_table_rom`: the command LOOKUP (40_table_rom.md R84). -/
namespace Sys2Proof.Machine

/-- `LOOKUP b` (R84): works with or without an instance, and every byte value is a legal index. -/
def execLookup (b : Byte) (s : State) : Host.Outcome State Fault Refusal :=
  .next (respond .ok (tableWord s.rom b) s)

end Sys2Proof.Machine
end

