-- ==== Sys2Proof/Machine/Dispatch.lean ====
section
/-! DEFINITION. The rule of each command (30_encoding.md R63, R71). -/
namespace Sys2Proof.Machine

def exec (i : Instr) (s : State) : Host.Outcome State Fault Refusal :=
  match i with
  | .create l w => Sys2Proof.Machine.execCreate l w s
  | .roll step => Sys2Proof.Machine.execRoll step s
  | .bulkroll stride => Sys2Proof.Machine.execBulkroll stride s
  | .reset => Sys2Proof.Machine.execReset s
  | .position => Sys2Proof.Machine.execPosition s
  | .sum64 => Sys2Proof.Machine.execSum64 s
  | .oneshot start n => Sys2Proof.Machine.execOneshot start n s
  | .lookup b => Sys2Proof.Machine.execLookup b s

end Sys2Proof.Machine
end

