-- ==== Sys2Proof/Machine/HostPort.lean ====
section
/-! DEFINITION. The ports of the block (20_memory.md R48): when each accepts a move of the host, and what
the move does. Nothing here is a command's meaning. -/
namespace Sys2Proof.Machine

/-- The command channel accepts a word when the previous response has been taken and no command is
executing (30_encoding.md R72; 70_reset_and_hazards.md R184, R187). -/
def acceptsCommand (s : State) : Bool :=
  s.rspPhase != .held && s.bulk.isNone

/-- A port accepts its move now: a command as above; a BUF write while no command executes
(70_reset_and_hazards.md R185; log entry 8); a taking of what is there to take; a reset at any time. -/
def accepts (s : State) : HostMove → Bool
  | .command _ => acceptsCommand s
  | .writeByte _ _ => s.bulk.isNone
  | .takeOut => !s.out.isEmpty
  | .takeResponse => s.rspPhase == .held
  | .blockReset => true

/-- The next move the block accepts, and the moves still to come. A move at a port that does not accept yet
waits there, and the other ports go on (log entry 7). -/
def nextMove (s : State) : List HostMove → Option (HostMove × List HostMove)
  | [] => none
  | m :: ms =>
    if accepts s m then some (m, ms)
    else
      match nextMove s ms with
      | none => none
      | some (m', rest) => some (m', m :: rest)

/-- R71: decode the accepted word and perform its rule; an illegal word is answered ILLEGAL_COMMAND
(60_exceptions.md R168). -/
def runCommand (w : CmdWord) (s : State) : Host.Outcome State Fault Refusal :=
  match decode w with
  | .error _ => .next (raise .illegalCommand s)
  | .ok i => exec i s

/-- The host write port (20_memory.md R45, R46): an index outside BUF is ignored, a byte of the live instance
buffer is refused (log entry 9). -/
def hostWrite (i : U32) (v : Byte) (s : State) : Host.Outcome State Fault Refusal :=
  if s.bufCap.toNat ≤ i.toNat then .next s
  else if s.instValid = true ∧ i.toNat < s.len.toNat then .refused (.liveBufferWrite i.toNat)
  else .next { s with buf := s.buf.write i.toNat v }

/-- The host takes the head of OUT (10_state.md R27), and a BULKROLL that waits for room goes on
(43_bulk_roll.md R135). -/
def takeOut (s : State) : State :=
  match s.bulk with
  | none => { s with out := s.out.tail }
  | some b => streamOut b.pending b.count { s with out := s.out.tail }

/-- The host takes the response (70_reset_and_hazards.md R187). -/
def takeResponse (s : State) : State :=
  { s with rspPhase := .taken }

/-- Block reset (70_reset_and_hazards.md R180): the state after reset, whatever command was in progress
(R181). The ROM and the other parameters are the block's and stay (40_table_rom.md R81); so do the host's
moves to come (log entry 13). -/
def blockReset (s : State) : State :=
  { State.reset with
    bufCap := s.bufCap, rom := s.rom, outDepth := s.outDepth, bulkImpl := s.bulkImpl
    host := s.host }

/-- What an accepted move does, to the state whose `host` no longer holds it. -/
def applyMove (m : HostMove) (s : State) : Host.Outcome State Fault Refusal :=
  match m with
  | .command w => runCommand w s
  | .writeByte i v => hostWrite i v s
  | .takeOut => .next (takeOut s)
  | .takeResponse => .next (takeResponse s)
  | .blockReset => .next (blockReset s)

/-- One step of the block with its host: the next accepted move, or none, and then the block waits as it is
(log entry 7). -/
def hostStep (s : State) : Host.Outcome State Fault Refusal :=
  match nextMove s s.host with
  | none => .next s
  | some (m, rest) => applyMove m { s with host := rest }

/-- The command channel free for a word: the last response taken, no BULKROLL waiting. -/
def freeChannel (s : State) : State :=
  { s with
    rspPhase := if s.rspPhase = .held then .taken else s.rspPhase
    bulk := none }

end Sys2Proof.Machine
end

