-- ==== Sys2Proof/Machine/Step.lean ====
section
/-! DEFINITION. One step, and how the host of the pipeline places a command before it. -/
namespace Sys2Proof.Machine

/-- One step: the next move of the host that a port accepts. -/
def step (s : State) : Host.Outcome State Fault Refusal :=
  hostStep s

/-- `s` with a command word presented next, on a channel that accepts it: the block fetches nothing, so
this stands for the host presenting the word (10_state.md R30; log entry 6). -/
def State.withFetchWord (s : State) (nbits w : Nat) : State :=
  { freeChannel s with host := .command (BitVec.ofNat 128 (w % 2 ^ nbits)) :: s.host }

end Sys2Proof.Machine
end

