-- ==== Sys2Proof/Machine/Assembler.lean ====
section
/-! DEFINITION. The assembler notation of 30_encoding.md R74 and R75: a source line, the commands it stands
for, and the text of a line. It is notation for command words and touches no state. -/
namespace Sys2Proof.Machine

/-- One source line of R74 or R75, its operands numbers of any size. -/
inductive SourceLine where
  /-- `CREATE L, W`. -/
  | create (l w : Nat)
  /-- `ROLL step`. -/
  | roll (step : Nat)
  /-- `BULKROLL stride`. -/
  | bulkroll (stride : Nat)
  /-- `RESET`. -/
  | reset
  /-- `POSITION`. -/
  | position
  /-- `SUM64`. -/
  | sum64
  /-- `ONESHOT S, N`. -/
  | oneshot (start n : Nat)
  /-- `LOOKUP b`. -/
  | lookup (b : Nat)
  /-- `STEP`, the single-step advance (R75). -/
  | stepOne
  /-- `SEEK p` (R75). -/
  | seek (p : Nat)
  /-- `HASH N` (R75). -/
  | hash (n : Nat)
deriving DecidableEq, Repr

/-- An operand as a field of `width` bits; refused where it does not fit (R74). -/
def operandField (width n : Nat) : Option (BitVec width) :=
  if n < 2 ^ width then some (BitVec.ofNat width n) else none

/-- The commands a source line stands for; none where an operand does not fit its field (R74, R75). -/
def assemble : SourceLine → Option (List Instr)
  | .create l w =>
    match operandField 32 l, operandField 64 w with
    | some l, some w => some [.create l w]
    | _, _ => none
  | .roll step => (operandField 64 step).map fun a => [.roll a]
  | .bulkroll stride => (operandField 64 stride).map fun a => [.bulkroll a]
  | .reset => some [.reset]
  | .position => some [.position]
  | .sum64 => some [.sum64]
  | .oneshot start n =>
    match operandField 64 start, operandField 32 n with
    | some start, some n => some [.oneshot start n]
    | _, _ => none
  | .lookup b => (operandField 8 b).map fun b => [.lookup b]
  | .stepOne => some [.roll 1]
  | .seek p => (operandField 64 p).map fun a => [.reset, .roll a]
  | .hash n => (operandField 32 n).map fun n => [.oneshot 0 n]

/-- The command words of a source line. -/
def assembleWords (l : SourceLine) : Option (List CmdWord) :=
  (assemble l).map fun is => is.map encode

/-- White space of a line: the blank and the tab (log entry 18). -/
def isBlankChar (c : Char) : Bool :=
  c == ' ' || c == '\t'

/-- The text without white space at its ends. -/
def trimText (cs : List Char) : List Char :=
  ((cs.dropWhile isBlankChar).reverse.dropWhile isBlankChar).reverse

/-- The value of a digit of base ten or sixteen. -/
def digitValue (c : Char) : Option Nat :=
  if '0' ≤ c ∧ c ≤ '9' then some (c.toNat - '0'.toNat)
  else if 'a' ≤ c ∧ c ≤ 'f' then some (c.toNat - 'a'.toNat + 10)
  else if 'A' ≤ c ∧ c ≤ 'F' then some (c.toNat - 'A'.toNat + 10)
  else none

/-- The digits `cs` of a number in `base`, after the digits that gave `acc`. -/
def digitsFrom (base : Nat) : Nat → List Char → Option Nat
  | acc, [] => some acc
  | acc, c :: cs =>
    match digitValue c with
    | none => none
    | some d => if d < base then digitsFrom base (acc * base + d) cs else none

/-- A number: decimal, or hexadecimal after `0x` (R74). -/
def parseNumber : List Char → Option Nat
  | [] => none
  | ['0', 'x'] => none
  | '0' :: 'x' :: cs => digitsFrom 16 0 cs
  | cs => digitsFrom 10 0 cs

/-- The pieces of a text between commas. -/
def splitCommas : List Char → List (List Char)
  | [] => [[]]
  | c :: cs =>
    if c = ',' then [] :: splitCommas cs
    else
      match splitCommas cs with
      | [] => [[c]]
      | p :: ps => (c :: p) :: ps

/-- Every piece of a list of operands as a number. -/
def parseNumbers : List (List Char) → Option (List Nat)
  | [] => some []
  | p :: ps =>
    match parseNumber (trimText p), parseNumbers ps with
    | some n, some ns => some (n :: ns)
    | _, _ => none

/-- The operands after a mnemonic, separated by commas (R74). -/
def parseOperands (cs : List Char) : Option (List Nat) :=
  if trimText cs = [] then some [] else parseNumbers (splitCommas cs)

/-- The source line with a mnemonic of R74 or R75 and its operands; none for any other mnemonic or number
of operands. -/
def sourceLine (mnemonic : List Char) (operands : List Nat) : Option SourceLine :=
  match operands with
  | [] =>
    if mnemonic = ['R', 'E', 'S', 'E', 'T'] then some .reset
    else if mnemonic = ['P', 'O', 'S', 'I', 'T', 'I', 'O', 'N'] then some .position
    else if mnemonic = ['S', 'U', 'M', '6', '4'] then some .sum64
    else if mnemonic = ['S', 'T', 'E', 'P'] then some .stepOne
    else none
  | [n] =>
    if mnemonic = ['R', 'O', 'L', 'L'] then some (.roll n)
    else if mnemonic = ['B', 'U', 'L', 'K', 'R', 'O', 'L', 'L'] then some (.bulkroll n)
    else if mnemonic = ['L', 'O', 'O', 'K', 'U', 'P'] then some (.lookup n)
    else if mnemonic = ['S', 'E', 'E', 'K'] then some (.seek n)
    else if mnemonic = ['H', 'A', 'S', 'H'] then some (.hash n)
    else none
  | [m, n] =>
    if mnemonic = ['C', 'R', 'E', 'A', 'T', 'E'] then some (.create m n)
    else if mnemonic = ['O', 'N', 'E', 'S', 'H', 'O', 'T'] then some (.oneshot m n)
    else none
  | _ => none

/-- The command words of one line of text: `;` starts a comment, a line with nothing else stands for no
command, and a line that is not of R74 or R75 is refused (R74). -/
def assembleText (line : List Char) : Option (List CmdWord) :=
  let text := trimText (line.takeWhile fun c => c != ';')
  if text = [] then some []
  else
    match parseOperands (text.dropWhile fun c => !isBlankChar c) with
    | none => none
    | some operands =>
      match sourceLine (text.takeWhile fun c => !isBlankChar c) operands with
      | none => none
      | some l => assembleWords l

end Sys2Proof.Machine
end

