-- ==== Sys2Proof/Machine/HostAdapter.lean ====
section
/-! DEFINITION. The host's side of the boundary (44_host_adapter.md): functions a host computes from the
block's commands and responses. They add no command and no state to the block (R145; log entry 19). -/
namespace Sys2Proof.Machine

/-- `Sum64()` is the block's SUM64 command (R146); none when it does not answer OK, since a hasher then
does not exist. -/
def adapterSum64 (s : State) : Option Word :=
  match exec .sum64 s with
  | .next t => if t.rspStatus = Status.ok.code then some t.rspResult else none
  | .fault _ => none
  | .refused _ => none

/-- `BE8(h)`: the eight bytes of a hash, most significant first (R147). -/
def be8 (h : Word) : List Byte :=
  [h.extractLsb' 56 8, h.extractLsb' 48 8, h.extractLsb' 40 8, h.extractLsb' 32 8,
    h.extractLsb' 24 8, h.extractLsb' 16 8, h.extractLsb' 8 8, h.extractLsb' 0 8]

/-- `Sum(prefix)`: the given bytes followed by the digest (R147). -/
def adapterSum (front : List Byte) (s : State) : Option (List Byte) :=
  (adapterSum64 s).map fun h => front ++ be8 h

/-- `Size()` (R148). -/
def adapterSize : Nat := 8

/-- `BlockSize()` (R149). -/
def adapterBlockSize : Nat := 1

/-- What `Write(bytes)` reports, and the moves it makes at the block's ports. -/
structure WriteReply where
  /-- The error. -/
  error : Status
  /-- How many bytes were accepted. -/
  accepted : Nat
  /-- The moves sent to the block. -/
  moves : List HostMove
deriving DecidableEq, Repr

/-- `Write(bytes)` fails with NotWritable for every argument and sends nothing to the block (R150). -/
def adapterWrite (_bytes : List Byte) : WriteReply where
  error := .notWritable
  accepted := 0
  moves := []

/-- The host writes a byte sequence into BUF from index `i` on (20_memory.md R45). -/
def loadMoves : Nat → List Byte → List HostMove
  | _, [] => []
  | i, b :: bs => .writeByte (BitVec.ofNat 32 i) b :: loadMoves (i + 1) bs

/-- What `create(buffer, windowSize)` does: the moves it makes at the block's ports, or the status it reports
with no move made. -/
inductive CreateReply where
  /-- The moves; the block's response to the last of them is the status. -/
  | moves (ms : List HostMove)
  /-- The status, where no command word can ask the block for it. -/
  | fails (e : Status)
deriving DecidableEq, Repr

/-- `create(buffer, windowSize)`: load the buffer at index 0, then CREATE (R152). A buffer longer than BUF_CAP
gives OUT_OF_RANGE: from the block where operand B holds the length, and from the adapter for 2^32 bytes or
more, which is longer than every BUF_CAP (20_memory.md R40; log entry 19). -/
def adapterCreate (buffer : List Byte) (w : Word) : CreateReply :=
  if buffer.length < 2 ^ 32 then
    .moves (loadMoves 0 buffer ++ [.command (encode (.create (BitVec.ofNat 32 buffer.length) w))])
  else .fails .outOfRange

/-- The one-shot `Hash(buffer)` of a host byte sequence: load it at `start`, then ONESHOT; none for a
sequence that does not fit BUF there (R151). -/
def adapterHash (s : State) (start : Nat) (bytes : List Byte) : Option (List HostMove) :=
  if start + bytes.length ≤ s.bufCap.toNat then
    some (loadMoves start bytes ++
      [.command (encode (.oneshot (BitVec.ofNat 64 start) (BitVec.ofNat 32 bytes.length)))])
  else none

end Sys2Proof.Machine
end

