-- ==== Sys2Proof/Safety.lean ====
section
/-! DEFINITION. What a good state is: the invariants the spec states, as predicates over every state. -/
namespace Sys2Proof.Machine

/-- The bounds of the cursor invariant (10_state.md R26): `POS + WIN <= LEN <= BUF_CAP` while an instance
exists. -/
def CursorInBounds (s : State) : Prop :=
  s.instValid = true → s.pos.toNat + s.win.toNat ≤ s.len.toNat ∧ s.len.toNat ≤ s.bufCap.toNat

/-- The bytes of the current window are written, and HASH is their one-shot hash (10_state.md R25, R26). -/
def HashOfWindow (s : State) : Prop :=
  s.instValid = true →
    ∃ window, readRange s s.pos.toNat s.win.toNat = .next window ∧ s.hash = oneShotHash s.rom window

/-- BUF is in its canonical form and lists only bytes that exist (20_memory.md R40, R45). -/
def BufferWellFormed (s : State) : Prop :=
  s.buf.wf = true ∧ ∀ cell ∈ s.buf, cell.1 < s.bufCap.toNat

/-- OUT holds at most OUT_DEPTH words (10_state.md R27), and a BULKROLL waits only while OUT is full, has
words left and has not answered (43_bulk_roll.md R135; 30_encoding.md R66). -/
def StreamWellFormed (s : State) : Prop :=
  s.out.length ≤ s.outDepth ∧
    ∀ b, s.bulk = some b → s.out.length = s.outDepth ∧ b.pending ≠ [] ∧ s.rspPhase ≠ .held

/-- The response pair holds a status the block produces, and result 0 with every status but OK
(10_state.md R28; 60_exceptions.md R160). -/
def ResponseLegal (s : State) : Prop :=
  s.rspStatus.toNat ≤ 7 ∧ s.rspStatus ≠ Status.notWritable.code ∧
    (s.rspStatus ≠ Status.ok.code → s.rspResult = 0)

/-- Every invariant the spec gives the block, together. -/
structure GoodState (s : State) : Prop where
  /-- R26, the bounds. -/
  bounds : CursorInBounds s
  /-- R25, R26, the hash. -/
  hash : HashOfWindow s
  /-- R40, R45. -/
  buffer : BufferWellFormed s
  /-- R27, R135. -/
  stream : StreamWellFormed s
  /-- R28, R160. -/
  response : ResponseLegal s
  /-- OUT_DEPTH is at least 1 (00_scope.md R8). -/
  depth : 1 ≤ s.outDepth

/-- The bytes `bytes` are what BUF holds from index 0 on, all of them inside BUF. -/
def Loaded (s : State) (bytes : List Byte) : Prop :=
  bytes.length ≤ s.bufCap.toNat ∧ ∀ i, (h : i < bytes.length) → s.buf.read i = some bytes[i]

/-- The state `s` with a response of the given code and result held for the host: what a command that
writes nothing else leaves (30_encoding.md R66; 60_exceptions.md R162). -/
def answered (s : State) (code : Byte) (result : Word) : State :=
  { s with rspStatus := code, rspResult := result, rspPhase := .held }

/-- `BUF[p : p + n]` where BUF holds `byteAt i` at index i (00_scope.md R11). -/
def windowBytes (byteAt : Nat → Byte) (p n : Nat) : List Byte :=
  (List.range' p n).map byteAt

/-- The hash after `n` single-byte updates from position `pos` and hash `h`, over a buffer that holds
`byteAt i` at index i: the formula of 42_rolling_window.md R100, repeated. -/
def rolledHash (rom : Vector Word 256) (byteAt : Nat → Byte) (win pos : Nat) (h : Word) : Nat → Word
  | 0 => h
  | n + 1 =>
    rotl (rolledHash rom byteAt win pos h n) 1
      ^^^ rotl (tableWord rom (byteAt (pos + n))) win
      ^^^ tableWord rom (byteAt (pos + n + win))

/-- The bytes that `k` single-byte updates from the cursor read are all written (42_rolling_window.md R100). -/
def WindowReadsUpTo (s : State) (k : Nat) : Prop :=
  ∀ j < k, s.buf.read (s.pos.toNat + j) ≠ none ∧ s.buf.read (s.pos.toNat + j + s.win.toNat) ≠ none

/-- `i` is the first unwritten byte that the update after those `k` reads: the leaving byte, or the entering
byte where the leaving one is written (R100). -/
def FirstUnwrittenOf (s : State) (k i : Nat) : Prop :=
  s.buf.read i = none ∧
    (i = s.pos.toNat + k ∨
      (i = s.pos.toNat + k + s.win.toNat ∧ s.buf.read (s.pos.toNat + k) ≠ none))

/-- The words of the BULKROLL in progress that have not entered OUT. -/
def pendingWords (s : State) : List Word :=
  match s.bulk with
  | none => []
  | some b => b.pending

/-- `ws` are what 43_bulk_roll.md R133 says of a BULKROLL: the current hash, then the hash after each of
`ws.length - 1` successive successful ROLLs, after which one more ROLL fails with ILLEGAL_ROLL. -/
def RollsGive (step : Word) : State → List Word → Prop
  | _, [] => False
  | s, [h] => s.hash = h ∧ exec (.roll step) s = .next (answered s 0x02 0)
  | s, h :: ws =>
    s.hash = h ∧ ∃ t, exec (.roll step) s = .next t ∧ t.rspStatus = 0x00 ∧ RollsGive step t ws

/-- The command words among the host's moves to come, in order. -/
def commandWords (moves : List HostMove) : List CmdWord :=
  moves.filterMap fun m =>
    match m with
    | .command w => some w
    | .writeByte _ _ => none
    | .takeOut => none
    | .takeResponse => none
    | .blockReset => none

/-- `TableBalanced(TABLE, tol)` (40_table_rom.md R82): over the 256 entries each bit is 1 within `tol` of 128
times. A quality property; no rule depends on it. -/
def TableBalanced (rom : Vector Word 256) (tol : Nat) : Prop :=
  ∀ j < 64, (((rom.toList.filter fun w => w.getLsbD j).length : Int) - 128).natAbs ≤ tol

end Sys2Proof.Machine
end

