-- ==== Sys2Proof/Certificates/Slice0/Obligations.lean ====
section
/-! DEFINITION. What is claimed of the model, one `Obligations.<Name> : Prop` each, from the numbered rules
of spec/. `answered s code result` is `s` with that response held for the host and nothing else changed;
`runCommand w s` is the block accepting the word `w` (30_encoding.md R71). Where a rule reads BUF, the bytes
it reads are a premise: the host wrote them (70_reset_and_hazards.md R183). What happens where it did not
write them is `Obligations.UnwrittenByteIsRefused`. -/
open Sys2Proof Sys2Proof.Machine

/-! ### Encoding -/

/-- 30_encoding.md R61, R63, R65: no bit of an operand is lost between the encoder and the decoder. -/
def Obligations.DecodeOfEncode : Prop :=
  ∀ i : Instr, decode (encode i) = .ok i

/-- 30_encoding.md R61, R63, R65: a word has one meaning, and every legal word is the encoding of it. -/
def Obligations.EncodeOfDecode : Prop :=
  ∀ (w : CmdWord) (i : Instr), decode w = .ok i → encode i = w

/-- 30_encoding.md R64. The fields are written by their bit positions (R61). -/
def Obligations.IllegalWords : Prop :=
  ∀ w : CmdWord,
    ((∃ e, decode w = .error e) ↔
      ((w.extractLsb' 0 8).toNat = 0x00 ∨ 0x09 ≤ (w.extractLsb' 0 8).toNat) ∨
      w.extractLsb' 8 24 ≠ 0#24 ∨
      ((w.extractLsb' 0 8).toNat ∈ [0x04, 0x05, 0x06, 0x08] ∧ w.extractLsb' 64 64 ≠ 0#64) ∨
      ((w.extractLsb' 0 8).toNat ∈ [0x02, 0x03, 0x04, 0x05, 0x06] ∧ w.extractLsb' 32 32 ≠ 0#32) ∨
      ((w.extractLsb' 0 8).toNat = 0x08 ∧ w.extractLsb' 40 24 ≠ 0#24)) ∧
    ∀ e, decode w = .error e → ∀ s : State, runCommand w s = .next (answered s 0x06 0)

/-- 30_encoding.md R63, R64, R65: the decoder accepts exactly the words whose fields are well-formed. -/
def Obligations.LegalWordsDecode : Prop :=
  ∀ w : CmdWord, (Cmd.ofWord w).wellFormed = true ↔ ∃ i, decode w = .ok i

/-- Words written out from 30_encoding.md R61 and R63 (grouped A_B_RSV_OPC), one for each opcode, and
reserved ones. -/
def Obligations.SampleWordsDecode : Prop :=
  decode 0x0123456789ABCDEF_89ABCDEF_000000_01 = .ok (.create 0x89ABCDEF 0x0123456789ABCDEF) ∧
  decode 0x8000000000000001_00000000_000000_02 = .ok (.roll 0x8000000000000001) ∧
  decode 0x8000000000000001_00000000_000000_03 = .ok (.bulkroll 0x8000000000000001) ∧
  decode 0x0000000000000000_00000000_000000_04 = .ok .reset ∧
  decode 0x0000000000000000_00000000_000000_05 = .ok .position ∧
  decode 0x0000000000000000_00000000_000000_06 = .ok .sum64 ∧
  decode 0xFFFFFFFFFFFFFFFF_00000001_000000_07 = .ok (.oneshot 0xFFFFFFFFFFFFFFFF 1) ∧
  decode 0x0000000000000000_000000FF_000000_08 = .ok (.lookup 0xFF) ∧
  decode 0x0000000000000000_00000100_000000_08 = .error .lookupIndex ∧
  decode 0x0000000000000000_00000000_000000_00 = .error .reservedOpcode ∧
  decode 0x0000000000000004_0000000B_800000_01 = .error .reservedField

/-! ### The step around exec -/

/-- 30_encoding.md R71. A presented word whose turn it is, and which decodes to `i`, runs as `exec i` on the
state whose host moves no longer hold it; the second clause is the word at the head of the moves, the third a
word placed by `withFetchWord`. -/
def Obligations.StepRunsTheDecodedCommand : Prop :=
  ∀ (s : State) (w : CmdWord) (rest : List HostMove) (i : Instr), decode w = .ok i →
    (nextMove s s.host = some (.command w, rest) → step s = exec i { s with host := rest }) ∧
    (acceptsCommand s = true → s.host = .command w :: rest → step s = exec i { s with host := rest }) ∧
    step (s.withFetchWord 128 w.toNat) = exec i (freeChannel s)

/-- 60_exceptions.md R168. That a step takes the head of the list of host moves is log entries 6 and 7. -/
def Obligations.IllegalWordAnswersIllegalCommand : Prop :=
  ∀ (s : State) (w : CmdWord) (rest : List HostMove) (e : Illegal), decode w = .error e →
    acceptsCommand s = true → s.host = .command w :: rest →
      step s = .next (answered { s with host := rest } 0x06 0)

/-- 30_encoding.md R72: a command is accepted only when the previous response has been taken and no command
is executing, and commands are accepted in the order the host issues them. -/
def Obligations.CommandsRunInIssueOrder : Prop :=
  ∀ (s : State) (w : CmdWord) (rest : List HostMove),
    nextMove s s.host = some (.command w, rest) →
      s.rspPhase ≠ .held ∧ s.bulk = none ∧ commandWords s.host = w :: commandWords rest

/-- 30_encoding.md R66: a command that is accepted and not refused ends with one held response, whose result
is 0 unless it is OK; or it is a BULKROLL that still waits for room in OUT, and has not answered. -/
def Obligations.EveryCommandResponds : Prop :=
  ∀ (w : CmdWord) (s t : State), acceptsCommand s = true → runCommand w s = .next t →
    (t.rspPhase = .held ∧ t.bulk = none ∧ (t.rspStatus ≠ 0x00 → t.rspResult = 0)) ∨
    ((∃ stride, decode w = .ok (.bulkroll stride)) ∧ t.bulk ≠ none ∧ t.rspPhase = s.rspPhase ∧
      t.rspStatus = s.rspStatus ∧ t.rspResult = s.rspResult)

/-! ### The commands -/

/-- 40_table_rom.md R84. -/
def Obligations.LookupRule : Prop :=
  ∀ s : State,
    (∀ b : Byte, decode (0#64 ++ 0#24 ++ b ++ 0#24 ++ 0x08#8) = .ok (.lookup b) ∧
      exec (.lookup b) s = .next (answered s 0x00 (s.rom.get b.toFin))) ∧
    ∀ w : CmdWord, w.extractLsb' 0 8 = 0x08#8 →
      (w.extractLsb' 40 24 ≠ 0#24 ∨ w.extractLsb' 64 64 ≠ 0#64) →
        runCommand w s = .next (answered s 0x06 0)

/-- 41_oneshot.md R94. -/
def Obligations.OneshotRule : Prop :=
  ∀ (s : State) (start : Word) (n : U32),
    decode (start ++ n ++ 0#24 ++ 0x07#8) = .ok (.oneshot start n) ∧
    (start.toNat + n.toNat > s.bufCap.toNat →
      exec (.oneshot start n) s = .next (answered s 0x07 0)) ∧
    (∀ bytes : List Byte, start.toNat + n.toNat ≤ s.bufCap.toNat → bytes.length = n.toNat →
      (∀ k, (h : k < bytes.length) → s.buf.read (start.toNat + k) = some bytes[k]) →
        exec (.oneshot start n) s = .next (answered s 0x00 (oneShotHash s.rom bytes))) ∧
    ∀ w : CmdWord, w.extractLsb' 0 8 = 0x07#8 → w.extractLsb' 8 24 ≠ 0#24 →
      runCommand w s = .next (answered s 0x06 0)

/-- 42_rolling_window.md R101. -/
def Obligations.CreateRule : Prop :=
  ∀ (s : State) (l : U32) (w : Word),
    decode (w ++ l ++ 0#24 ++ 0x01#8) = .ok (.create l w) ∧
    (l.toNat > s.bufCap.toNat → exec (.create l w) s = .next (answered s 0x07 0)) ∧
    (l.toNat ≤ s.bufCap.toNat → w.toNat > l.toNat →
      exec (.create l w) s = .next (answered s 0x01 0)) ∧
    (∀ bytes : List Byte, l.toNat ≤ s.bufCap.toNat → w.toNat ≤ l.toNat → bytes.length = w.toNat →
      (∀ k, (h : k < bytes.length) → s.buf.read k = some bytes[k]) →
        exec (.create l w) s =
          .next (answered
            { s with
              instValid := true, len := l, win := w.extractLsb' 0 32, pos := 0
              hash := oneShotHash s.rom bytes }
            0x00 (oneShotHash s.rom bytes))) ∧
    ∀ v : CmdWord, v.extractLsb' 0 8 = 0x01#8 → v.extractLsb' 8 24 ≠ 0#24 →
      runCommand v s = .next (answered s 0x06 0)

/-- 42_rolling_window.md R102, with the update of R100 written out in `rolledHash`. -/
def Obligations.RollRule : Prop :=
  ∀ (s : State) (step : Word),
    decode (step ++ 0#32 ++ 0#24 ++ 0x02#8) = .ok (.roll step) ∧
    (s.instValid = false → exec (.roll step) s = .next (answered s 0x05 0)) ∧
    (s.instValid = true → s.pos.toNat + step.toNat + s.win.toNat > s.len.toNat →
      exec (.roll step) s = .next (answered s 0x02 0)) ∧
    (∀ byteAt : Nat → Byte, s.instValid = true →
      s.pos.toNat + step.toNat + s.win.toNat ≤ s.len.toNat → s.len.toNat ≤ s.bufCap.toNat →
      (∀ k < step.toNat,
        s.buf.read (s.pos.toNat + k) = some (byteAt (s.pos.toNat + k)) ∧
        s.buf.read (s.pos.toNat + k + s.win.toNat) = some (byteAt (s.pos.toNat + k + s.win.toNat))) →
        exec (.roll step) s =
          .next (answered
            { s with
              pos := BitVec.ofNat 32 (s.pos.toNat + step.toNat)
              hash := rolledHash s.rom byteAt s.win.toNat s.pos.toNat s.hash step.toNat }
            0x00 (rolledHash s.rom byteAt s.win.toNat s.pos.toNat s.hash step.toNat))) ∧
    ∀ v : CmdWord, v.extractLsb' 0 8 = 0x02#8 →
      (v.extractLsb' 32 32 ≠ 0#32 ∨ v.extractLsb' 8 24 ≠ 0#24) →
        runCommand v s = .next (answered s 0x06 0)

/-- 42_rolling_window.md R104. The window lies inside BUF while the cursor invariant holds; here that is the
premise `WIN <= BUF_CAP`. -/
def Obligations.ResetRule : Prop :=
  ∀ s : State,
    decode 0x04 = .ok .reset ∧
    (s.instValid = false → exec .reset s = .next (answered s 0x05 0)) ∧
    (∀ bytes : List Byte, s.instValid = true → s.win.toNat ≤ s.bufCap.toNat →
      bytes.length = s.win.toNat →
      (∀ k, (h : k < bytes.length) → s.buf.read k = some bytes[k]) →
        exec .reset s =
          .next (answered { s with pos := 0, hash := oneShotHash s.rom bytes } 0x00
            (oneShotHash s.rom bytes))) ∧
    (∀ t, exec .reset s = .next t → exec .reset t = .next t) ∧
    ∀ v : CmdWord, v.extractLsb' 0 8 = 0x04#8 →
      (v.extractLsb' 64 64 ≠ 0#64 ∨ v.extractLsb' 32 32 ≠ 0#32 ∨ v.extractLsb' 8 24 ≠ 0#24) →
        runCommand v s = .next (answered s 0x06 0)

/-- 42_rolling_window.md R105. -/
def Obligations.PositionRule : Prop :=
  ∀ s : State,
    decode 0x05 = .ok .position ∧
    (s.instValid = false → exec .position s = .next (answered s 0x05 0)) ∧
    (s.instValid = true →
      exec .position s = .next (answered s 0x00 (BitVec.ofNat 64 s.pos.toNat))) ∧
    (s.instValid = true → CursorInBounds s →
      (BitVec.ofNat 64 s.pos.toNat).toNat ≤ s.len.toNat - s.win.toNat) ∧
    (BitVec.ofNat 64 s.pos.toNat).extractLsb' 32 32 = 0#32 ∧
    ∀ v : CmdWord, v.extractLsb' 0 8 = 0x05#8 →
      (v.extractLsb' 64 64 ≠ 0#64 ∨ v.extractLsb' 32 32 ≠ 0#32 ∨ v.extractLsb' 8 24 ≠ 0#24) →
        runCommand v s = .next (answered s 0x06 0)

/-- 42_rolling_window.md R106. -/
def Obligations.Sum64Rule : Prop :=
  ∀ s : State,
    decode 0x06 = .ok .sum64 ∧
    (s.instValid = false → exec .sum64 s = .next (answered s 0x05 0)) ∧
    (s.instValid = true → exec .sum64 s = .next (answered s 0x00 s.hash)) ∧
    (s.instValid = true → HashOfWindow s →
      ∃ window, readRange s s.pos.toNat s.win.toNat = .next window ∧
        exec .sum64 s = .next (answered s 0x00 (oneShotHash s.rom window))) ∧
    ∀ v : CmdWord, v.extractLsb' 0 8 = 0x06#8 →
      (v.extractLsb' 64 64 ≠ 0#64 ∨ v.extractLsb' 32 32 ≠ 0#32 ∨ v.extractLsb' 8 24 ≠ 0#24) →
        runCommand v s = .next (answered s 0x06 0)

/-- 43_bulk_roll.md R130, with K the number of turns of its loop. Where the words do not fit OUT the command
waits for the host, its response still to come (R135; log entry 10). -/
def Obligations.BulkrollRule : Prop :=
  ∀ (s : State) (stride : Word),
    decode (stride ++ 0#32 ++ 0#24 ++ 0x03#8) = .ok (.bulkroll stride) ∧
    (s.instValid = false → exec (.bulkroll stride) s = .next (answered s 0x05 0)) ∧
    (s.instValid = true → stride = 0#64 → exec (.bulkroll stride) s = .next (answered s 0x03 0)) ∧
    (∀ byteAt : Nat → Byte, s.instValid = true → stride ≠ 0#64 → s.len.toNat ≤ s.bufCap.toNat →
      (∀ k < (s.len.toNat - s.win.toNat - s.pos.toNat) / stride.toNat * stride.toNat,
        s.buf.read (s.pos.toNat + k) = some (byteAt (s.pos.toNat + k)) ∧
        s.buf.read (s.pos.toNat + k + s.win.toNat) = some (byteAt (s.pos.toNat + k + s.win.toNat))) →
        let K := (s.len.toNat - s.win.toNat - s.pos.toNat) / stride.toNat + 1
        let words := (List.range K).map fun j =>
          rolledHash s.rom byteAt s.win.toNat s.pos.toNat s.hash (j * stride.toNat)
        let room := s.outDepth - s.out.length
        exec (.bulkroll stride) s =
          .next (if s.out.length + K ≤ s.outDepth then
            answered { s with out := s.out ++ words, bulk := none } 0x00 (BitVec.ofNat 64 K)
          else
            { s with
              out := s.out ++ words.take room
              bulk := some { pending := words.drop room, count := BitVec.ofNat 64 K } })) ∧
    ∀ v : CmdWord, v.extractLsb' 0 8 = 0x03#8 →
      (v.extractLsb' 32 32 ≠ 0#32 ∨ v.extractLsb' 8 24 ≠ 0#24) →
        runCommand v s = .next (answered s 0x06 0)

/-- 70_reset_and_hazards.md R183, its last sentence: a command that reads a byte the host never wrote is
refused, by the index of the first such byte. -/
def Obligations.UnwrittenByteIsRefused : Prop :=
  ∀ (s : State) (k : Nat),
    (∀ (start : Word) (n : U32), start.toNat + n.toNat ≤ s.bufCap.toNat → k < n.toNat →
      (∀ j < k, s.buf.read (start.toNat + j) ≠ none) → s.buf.read (start.toNat + k) = none →
        exec (.oneshot start n) s = .refused (.unwrittenByte (start.toNat + k))) ∧
    (∀ (l : U32) (w : Word), l.toNat ≤ s.bufCap.toNat → w.toNat ≤ l.toNat → k < w.toNat →
      (∀ j < k, s.buf.read j ≠ none) → s.buf.read k = none →
        exec (.create l w) s = .refused (.unwrittenByte k)) ∧
    (s.instValid = true → s.win.toNat ≤ s.bufCap.toNat → k < s.win.toNat →
      (∀ j < k, s.buf.read j ≠ none) → s.buf.read k = none →
        exec .reset s = .refused (.unwrittenByte k)) ∧
    (∀ (step : Word) (i : Nat), s.instValid = true →
      s.pos.toNat + step.toNat + s.win.toNat ≤ s.len.toNat → s.len.toNat ≤ s.bufCap.toNat →
      k < step.toNat → WindowReadsUpTo s k → FirstUnwrittenOf s k i →
        exec (.roll step) s = .refused (.unwrittenByte i)) ∧
    ∀ (stride : Word) (i : Nat), s.instValid = true → stride ≠ 0#64 →
      s.len.toNat ≤ s.bufCap.toNat →
      k < (s.len.toNat - s.win.toNat - s.pos.toNat) / stride.toNat * stride.toNat →
      WindowReadsUpTo s k → FirstUnwrittenOf s k i →
        exec (.bulkroll stride) s = .refused (.unwrittenByte i)

/-- 60_exceptions.md R170: ILLEGAL_COMMAND first, then NO_INSTANCE, then the operand checks in the rule's
order. -/
def Obligations.FailurePriority : Prop :=
  (∀ (s : State) (w : CmdWord) (e : Illegal), decode w = .error e →
    runCommand w s = .next (answered s 0x06 0)) ∧
  (∀ (s : State) (a : Word), s.instValid = false →
    ∀ i ∈ [Instr.roll a, Instr.bulkroll a, Instr.reset, Instr.position, Instr.sum64],
      exec i s = .next (answered s 0x05 0)) ∧
  (∀ (s : State) (l : U32) (w : Word), l.toNat > s.bufCap.toNat →
    exec (.create l w) s = .next (answered s 0x07 0)) ∧
  (∀ (s : State) (l : U32) (w : Word), l.toNat ≤ s.bufCap.toNat → w.toNat > l.toNat →
    exec (.create l w) s = .next (answered s 0x01 0)) ∧
  (∀ (s : State) (step : Word), s.instValid = true →
    s.pos.toNat + step.toNat + s.win.toNat > s.len.toNat →
      exec (.roll step) s = .next (answered s 0x02 0)) ∧
  (∀ s : State, s.instValid = true → exec (.bulkroll 0) s = .next (answered s 0x03 0)) ∧
  ∀ (s : State) (start : Word) (n : U32), start.toNat + n.toNat > s.bufCap.toNat →
    exec (.oneshot start n) s = .next (answered s 0x07 0)

/-! ### Frames -/

/-- 10_state.md R29, rows POSITION, SUM64, ONESHOT, LOOKUP: only the response is written. -/
def Obligations.ReadingCommandsFrame : Prop :=
  ∀ (i : Instr) (s t : State),
    (i = .position ∨ i = .sum64 ∨ (∃ start n, i = .oneshot start n) ∨ ∃ b, i = .lookup b) →
    exec i s = .next t →
      t = { s with rspStatus := t.rspStatus, rspResult := t.rspResult, rspPhase := .held } ∧
      ∀ a, readBuf t a = readBuf s a

/-- 10_state.md R29, row CREATE: INST_VALID, LEN, WIN, POS, HASH and the response are written, by a
successful CREATE; only the response by a failing one. -/
def Obligations.CreateFrame : Prop :=
  ∀ (l : U32) (w : Word) (s t : State), exec (.create l w) s = .next t →
    t = { s with
      instValid := t.instValid, len := t.len, win := t.win, pos := t.pos, hash := t.hash
      rspStatus := t.rspStatus, rspResult := t.rspResult, rspPhase := .held } ∧
    (∀ a, readBuf t a = readBuf s a) ∧
    (t.rspStatus ≠ 0x00 → t = answered s t.rspStatus 0)

/-- 10_state.md R29, rows ROLL and RESET (70_reset_and_hazards.md R182 for RESET): POS, HASH and the response
are written; only the response by a failing one. -/
def Obligations.RollAndResetFrame : Prop :=
  ∀ (i : Instr) (s t : State), ((∃ step, i = .roll step) ∨ i = .reset) → exec i s = .next t →
    t = { s with
      pos := t.pos, hash := t.hash
      rspStatus := t.rspStatus, rspResult := t.rspResult, rspPhase := .held } ∧
    (∀ a, readBuf t a = readBuf s a) ∧
    (t.rspStatus ≠ 0x00 → t = answered s t.rspStatus 0)

/-- 10_state.md R29, row BULKROLL: OUT and the response are written, and with OUT the model's record of the
words that wait; older words of OUT stay in front (R27). -/
def Obligations.BulkrollFrame : Prop :=
  ∀ (stride : Word) (s t : State), exec (.bulkroll stride) s = .next t →
    t = { s with
      out := t.out, bulk := t.bulk
      rspStatus := t.rspStatus, rspResult := t.rspResult, rspPhase := t.rspPhase } ∧
    s.out <+: t.out ∧
    ∀ a, readBuf t a = readBuf s a

/-- 60_exceptions.md R162 and 42_rolling_window.md R108: an accepted command that ends with a status other
than OK changes nothing but the response, whose result is 0. -/
def Obligations.FailureChangesOnlyTheResponse : Prop :=
  ∀ (w : CmdWord) (s t : State), acceptsCommand s = true → runCommand w s = .next t →
    t.rspPhase = .held → t.rspStatus ≠ 0x00 → t = answered s t.rspStatus 0

/-- 43_bulk_roll.md R132: whatever BULKROLL answers, and however many words the host takes while it goes on
streaming, the cursor stays, and POSITION and SUM64 answer what they answered before. -/
def Obligations.BulkrollDoesNotMoveTheCursor : Prop :=
  ∀ (stride : Word) (s t : State), exec (.bulkroll stride) s = .next t →
    ∀ (taken : Nat) (u : State), u = Nat.repeat takeOut taken t →
      (u.instValid = s.instValid ∧ u.len = s.len ∧ u.win = s.win ∧ u.pos = s.pos ∧
        u.hash = s.hash) ∧
      ∀ i ∈ [Instr.position, Instr.sum64], ∀ p q, exec i s = .next p → exec i u = .next q →
        readResponse q = readResponse p

/-! ### Rules of the whole machine -/

/-- 20_memory.md R44: no command writes BUF or ROM, nor does a BULKROLL that goes on streaming. -/
def Obligations.BlockNeverWritesMemory : Prop :=
  ∀ s : State,
    (∀ (w : CmdWord) (t : State), runCommand w s = .next t →
      t.buf = s.buf ∧ t.rom = s.rom ∧ ∀ a, readBuf t a = readBuf s a) ∧
    (takeOut s).buf = s.buf ∧ (takeOut s).rom = s.rom

/-- 40_table_rom.md R81 for the ROM; that the other parameters of 00_scope.md R8 stay is log entry 1. No step
changes the ROM, BUF_CAP, OUT_DEPTH or BULK_IMPL, and no step's outcome depends on BULK_IMPL
(43_bulk_roll.md R134): with its other value the block makes the same step, or stops for the same reason. -/
def Obligations.ParametersNeverChange : Prop :=
  ∀ s : State,
    (∀ t, step s = .next t →
      t.rom = s.rom ∧ t.bufCap = s.bufCap ∧ t.outDepth = s.outDepth ∧ t.bulkImpl = s.bulkImpl) ∧
    ∀ impl : BulkImpl,
      (∀ t, step s = .next t → step { s with bulkImpl := impl } = .next { t with bulkImpl := impl }) ∧
      (∀ f, step s = .fault f → step { s with bulkImpl := impl } = .fault f) ∧
      ∀ e, step s = .refused e → step { s with bulkImpl := impl } = .refused e

/-- 10_state.md R21. -/
def Obligations.InstValidIsClearedOnlyByReset : Prop :=
  (∀ (s t : State), step s = .next t → s.instValid = true → t.instValid = false →
    ∃ rest, nextMove s s.host = some (.blockReset, rest)) ∧
  (∀ (l : U32) (w : Word) (s t : State), exec (.create l w) s = .next t → t.rspStatus = 0x00 →
    t.instValid = true) ∧
  (∀ (s : State) (a : Word), s.instValid = false →
    ∀ i ∈ [Instr.roll a, Instr.bulkroll a, Instr.reset, Instr.position, Instr.sum64],
      exec i s = .next (answered s 0x05 0))

/-- 10_state.md R22, R23: only CREATE writes LEN and WIN, and only when it succeeds. -/
def Obligations.OnlyCreateWritesLenAndWin : Prop :=
  ∀ (i : Instr) (s t : State), exec i s = .next t →
    (t.len ≠ s.len ∨ t.win ≠ s.win ∨ t.instValid ≠ s.instValid) →
      (∃ l w, i = .create l w ∧ t.len = l ∧ t.win.toNat = w.toNat) ∧ t.rspStatus = 0x00

/-- 10_state.md R31: no command reads the status or the result of an earlier one. With any other pair in the
response registers, a command that answers gives the very same state, and a BULKROLL that waits, which has
not answered yet, leaves that other pair where it was. -/
def Obligations.NoCommandReadsTheResponse : Prop :=
  ∀ (i : Instr) (s t : State) (code : Byte) (result : Word), acceptsCommand s = true →
    exec i s = .next t →
      ∃ t', exec i { s with rspStatus := code, rspResult := result } = .next t' ∧
        (t.rspPhase = .held → t' = t) ∧
        (t.rspPhase ≠ .held → t' = { t with rspStatus := code, rspResult := result })

/-- 41_oneshot.md R94 and 40_table_rom.md R84: ONESHOT and LOOKUP neither read nor write the cursor or OUT:
two states that agree on BUF, its size and the ROM get the same response. -/
def Obligations.OneshotAndLookupIgnoreTheCursor : Prop :=
  ∀ (i : Instr) (s u t : State), ((∃ start n, i = .oneshot start n) ∨ ∃ b, i = .lookup b) →
    u.buf = s.buf → u.bufCap = s.bufCap → u.rom = s.rom → exec i s = .next t →
      exec i u = .next (answered u t.rspStatus t.rspResult)

/-- 42_rolling_window.md R102: the result does not depend on how the advance is grouped. -/
def Obligations.RollsAddUp : Prop :=
  ∀ (s t u : State) (a b : Word), exec (.roll a) s = .next t → t.rspStatus = 0x00 →
    exec (.roll b) t = .next u → u.rspStatus = 0x00 → exec (.roll (a + b)) s = .next u

/-- 42_rolling_window.md R104 and 90_conflicts.md C4: RESET right after a successful CREATE changes nothing,
so its result is the hash CREATE returned. -/
def Obligations.ResetAfterCreateChangesNothing : Prop :=
  ∀ (l : U32) (w : Word) (s t : State), exec (.create l w) s = .next t → t.rspStatus = 0x00 →
    exec .reset t = .next t

/-! ### The window laws -/

/-- 42_rolling_window.md R107: a ROLL that fits takes the one-shot hash of the window at POS to the one-shot
hash of the window at POS + step. -/
def Obligations.RollGivesTheHashOfTheWindow : Prop :=
  ∀ (s : State) (step : Word) (byteAt : Nat → Byte), s.instValid = true →
    s.pos.toNat + step.toNat + s.win.toNat ≤ s.len.toNat → s.len.toNat ≤ s.bufCap.toNat →
    (∀ i, s.pos.toNat ≤ i → i < s.pos.toNat + step.toNat + s.win.toNat →
      s.buf.read i = some (byteAt i)) →
    s.hash = oneShotHash s.rom (windowBytes byteAt s.pos.toNat s.win.toNat) →
      let h := oneShotHash s.rom (windowBytes byteAt (s.pos.toNat + step.toNat) s.win.toNat)
      exec (.roll step) s =
        .next (answered
          { s with pos := BitVec.ofNat 32 (s.pos.toNat + step.toNat), hash := h } 0x00 h)

/-- 43_bulk_roll.md R131: BULKROLL emits exactly the one-shot hashes of the windows at POS, POS + stride, ...
that fit the buffer. Where OUT has no room for them all, the rest waits (R135; log entry 10). -/
def Obligations.BulkrollEmitsTheWindowHashes : Prop :=
  ∀ (s : State) (stride : Word) (byteAt : Nat → Byte), s.instValid = true → stride ≠ 0#64 →
    s.pos.toNat + s.win.toNat ≤ s.len.toNat → s.len.toNat ≤ s.bufCap.toNat →
    (∀ i, s.pos.toNat ≤ i → i < s.len.toNat → s.buf.read i = some (byteAt i)) →
    s.hash = oneShotHash s.rom (windowBytes byteAt s.pos.toNat s.win.toNat) →
      let K := (s.len.toNat - s.win.toNat - s.pos.toNat) / stride.toNat + 1
      let words := (List.range K).map fun j =>
        oneShotHash s.rom (windowBytes byteAt (s.pos.toNat + j * stride.toNat) s.win.toNat)
      (s.out.length + K ≤ s.outDepth →
        exec (.bulkroll stride) s =
          .next (answered { s with out := s.out ++ words, bulk := none } 0x00
            (BitVec.ofNat 64 K))) ∧
      (s.outDepth < s.out.length + K →
        ∃ t, exec (.bulkroll stride) s = .next t ∧ t.rspPhase = s.rspPhase ∧
          t.out ++ pendingWords t = s.out ++ words)

/-- 43_bulk_roll.md R133, for every state, whether or not the cursor invariant holds. The words it emits are
those in OUT and those that wait for it (log entry 10). -/
def Obligations.BulkrollAgreesWithRoll : Prop :=
  ∀ (s t : State) (stride : Word), s.instValid = true → stride ≠ 0#64 →
    exec (.bulkroll stride) s = .next t →
      RollsGive stride s (t.out.drop s.out.length ++ pendingWords t)

/-- 42_rolling_window.md R109: with window size 0, CREATE gives hash 0 and needs no byte of BUF, ROLL keeps
it 0, and every word BULKROLL emits is 0. -/
def Obligations.WindowSizeZeroHashesToZero : Prop :=
  (∀ (s : State) (l : U32), l.toNat ≤ s.bufCap.toNat →
    exec (.create l 0) s =
      .next (answered { s with instValid := true, len := l, win := 0, pos := 0, hash := 0 } 0x00 0)) ∧
  (∀ (s : State) (step : Word), s.instValid = true → s.win = 0 → s.hash = 0 →
    s.pos.toNat + step.toNat ≤ s.len.toNat → s.len.toNat ≤ s.bufCap.toNat →
    (∀ k < step.toNat, s.buf.read (s.pos.toNat + k) ≠ none) →
      exec (.roll step) s =
        .next (answered { s with pos := BitVec.ofNat 32 (s.pos.toNat + step.toNat) } 0x00 0)) ∧
  (∀ (s t : State) (stride : Word), s.instValid = true → stride ≠ 0#64 → s.win = 0 → s.hash = 0 →
    exec (.bulkroll stride) s = .next t →
      ∀ x ∈ t.out.drop s.out.length ++ pendingWords t, x = 0)

/-! ### The functions -/

/-- 00_scope.md R10. -/
def Obligations.RotationLaws : Prop :=
  ∀ (x y : Word) (r a b : Nat),
    (r % 64 = 0 → rotl x r = x) ∧
    (r % 64 ≠ 0 → rotl x r =
      BitVec.ofNat 64 ((x.toNat <<< (r % 64) ||| x.toNat >>> (64 - r % 64)) % 2 ^ 64)) ∧
    rotl x 64 = x ∧
    rotl (rotl x a) b = rotl x (a + b) ∧
    rotl (x ^^^ y) r = rotl x r ^^^ rotl y r ∧
    rotl 0 r = 0

/-- 41_oneshot.md R90: the XOR over all positions, in any order. -/
def Obligations.OneShotHashIsTheXorOfItsTerms : Prop :=
  ∀ (rom : Vector Word 256) (bytes : List Byte) (order : List Nat),
    order.Perm (List.range bytes.length) →
      oneShotHash rom bytes =
        (order.map fun i =>
          rotl (rom.get (bytes.getD i 0).toFin) (bytes.length - 1 - i)).foldr (· ^^^ ·) 0

/-- 41_oneshot.md R91. -/
def Obligations.OneShotHashSmallCases : Prop :=
  ∀ (rom : Vector Word 256) (c d : Byte),
    oneShotHash rom [] = 0 ∧
    oneShotHash rom [c] = rom.get c.toFin ∧
    oneShotHash rom [c, d] = rotl (rom.get c.toFin) 1 ^^^ rom.get d.toFin

/-- 41_oneshot.md R92. -/
def Obligations.AppendAndDropLaws : Prop :=
  ∀ (rom : Vector Word 256) (bytes : List Byte) (c : Byte),
    oneShotHash rom (bytes ++ [c]) = rotl (oneShotHash rom bytes) 1 ^^^ rom.get c.toFin ∧
    oneShotHash rom bytes =
      oneShotHash rom (c :: bytes) ^^^ rotl (rom.get c.toFin) ((c :: bytes).length - 1)

/-- 41_oneshot.md R93: 64 equal bytes give the parity of their table word in every bit, 65 give the XOR of
the rotations 1 to 63, and bytes 64 apart get the same rotation, so exchanging a pair of equal bytes 64 apart
for another such pair does not change the hash. -/
def Obligations.WindowsOf64BytesOrMore : Prop :=
  ∀ (rom : Vector Word 256) (c d : Byte),
    oneShotHash rom (List.replicate 64 c) =
      (if ((List.range 64).filter fun j => (rom.get c.toFin).getLsbD j).length % 2 = 0 then 0
        else BitVec.allOnes 64) ∧
    oneShotHash rom (List.replicate 65 c) =
      ((List.range' 1 63).map fun r => rotl (rom.get c.toFin) r).foldr (· ^^^ ·) 0 ∧
    ∀ front mid back : List Byte, mid.length = 63 →
      oneShotHash rom (front ++ c :: mid ++ c :: back) =
        oneShotHash rom (front ++ d :: mid ++ d :: back)

/-! ### The host's ports -/

/-- 20_memory.md R45, R46: the write port takes one byte; outside BUF the write is ignored, inside the live
instance buffer it is refused. -/
def Obligations.HostWritePort : Prop :=
  ∀ (s : State) (i : U32) (v : Byte),
    (s.bufCap.toNat ≤ i.toNat → applyMove (.writeByte i v) s = .next s) ∧
    (i.toNat < s.bufCap.toNat → s.instValid = true → i.toNat < s.len.toNat →
      applyMove (.writeByte i v) s = .refused (.liveBufferWrite i.toNat)) ∧
    (i.toNat < s.bufCap.toNat → (s.instValid = true → s.len.toNat ≤ i.toNat) →
      ∃ t, applyMove (.writeByte i v) s = .next t ∧ t = { s with buf := t.buf } ∧
        readBuf t i.toNat = .next v ∧ ∀ j, j ≠ i.toNat → readBuf t j = readBuf s j)

/-- 10_state.md R27: the host takes the words of OUT, and those still waiting to enter it (log entry 10), from
the head, one at a time, in order. Nothing else changes but the BULKROLL in progress and its response, and
where there is none in progress, nothing else at all. -/
def Obligations.OutIsFirstInFirstOut : Prop :=
  ∀ (s : State), s.out ≠ [] →
    ∃ t, applyMove .takeOut s = .next t ∧
      t.out ++ pendingWords t = (s.out ++ pendingWords s).tail ∧
      t = { s with
        out := t.out, bulk := t.bulk
        rspStatus := t.rspStatus, rspResult := t.rspResult, rspPhase := t.rspPhase } ∧
      (s.bulk = none → t = { s with out := s.out.tail })

/-- 70_reset_and_hazards.md R186: a BULKROLL that waits on a full OUT waits for ever while the host takes no
word (and does not reset the block), and the block accepts nothing else. -/
def Obligations.StreamWaitsForTheHost : Prop :=
  ∀ s : State, StreamWellFormed s → s.bulk ≠ none →
    (∀ m ∈ s.host, m ≠ .takeOut ∧ m ≠ .blockReset) → step s = .next s

/-- 70_reset_and_hazards.md R186, R189: a host that takes as many words as are still waiting gets the
response, with the count the BULKROLL computed; every word has come out in order. -/
def Obligations.DrainingCompletesTheStream : Prop :=
  ∀ (s : State) (b : Bulk) (rest : List HostMove), StreamWellFormed s → 1 ≤ s.outDepth →
    s.bulk = some b → s.host = List.replicate b.pending.length .takeOut ++ rest →
      Host.Core.run Sys2Proof.core b.pending.length s =
        .next (answered
          { s with
            out := (s.out ++ b.pending).drop b.pending.length, bulk := none, host := rest }
          0x00 b.count)

/-- 70_reset_and_hazards.md R187: a held response stays until the host takes it (or resets the block), taking
it lets the next command in, and before the first command of a reset has completed there is none: none right
after a reset, and none after any step in which no command completes, be it one that accepts no command and
finds none executing, or one after which a BULKROLL still waits. -/
def Obligations.ResponseIsHeldUntilTaken : Prop :=
  (∀ (s t : State) (m : HostMove) (rest : List HostMove), s.rspPhase = .held → s.bulk = none →
    nextMove s s.host = some (m, rest) → m ≠ .takeResponse → m ≠ .blockReset → step s = .next t →
      (∀ w, m ≠ .command w) ∧ t.rspPhase = .held ∧ readResponse t = readResponse s) ∧
  (∀ s : State, s.rspPhase = .held → s.bulk = none →
    ∃ t, applyMove .takeResponse s = .next t ∧ acceptsCommand t = true ∧ t = { s with rspPhase := .taken }) ∧
  (∀ s : State, readResponse State.reset = none ∧ readResponse (blockReset s) = none) ∧
  ∀ s t : State, readResponse s = none → step s = .next t →
    ((s.bulk = none ∧ ∀ w rest, nextMove s s.host ≠ some (.command w, rest)) ∨ t.bulk ≠ none) →
      readResponse t = none

/-- 70_reset_and_hazards.md R180, R181: after a block reset, whatever was in progress, no instance exists, OUT
is empty, no response is held, no byte of BUF has a value (10_state.md R34, R183: a read is refused by its
index, log entry 4), the ROM and the other parameters are unchanged and commands are accepted; the cursor
commands report NO_INSTANCE. -/
def Obligations.BlockResetState : Prop :=
  ∀ s : State, ∃ t, applyMove .blockReset s = .next t ∧
    t.instValid = false ∧ t.out = [] ∧ t.bulk = none ∧ readResponse t = none ∧
    (∀ i, i < t.bufCap.toNat → readBuf t i = .refused (.unwrittenByte i)) ∧
    t.rom = s.rom ∧ t.bufCap = s.bufCap ∧ t.outDepth = s.outDepth ∧ t.bulkImpl = s.bulkImpl ∧
    acceptsCommand t = true ∧
    ∀ a : Word, ∀ i ∈ [Instr.roll a, Instr.bulkroll a, Instr.reset, Instr.position, Instr.sum64],
      exec i t = .next (answered t 0x05 0)

/-! ### Invariants -/

/-- 10_state.md R34 and 70_reset_and_hazards.md R180: every invariant holds right after reset. With no response
held, the clause on the response registers (R28; 60_exceptions.md R160) is about the zeros of log entry 3,
and that OUT_DEPTH is at least 1 (00_scope.md R8) is log entry 23. -/
def Obligations.ResetIsGood : Prop :=
  GoodState State.reset ∧ State.reset.instValid = false ∧ State.reset.out = [] ∧
    readResponse State.reset = none

/-- 10_state.md R26, the bounds, kept by every step. -/
def Obligations.StepKeepsCursorInBounds : Prop :=
  ∀ s t : State, CursorInBounds s → step s = .next t → CursorInBounds t

/-- 10_state.md R25, R26: HASH is the one-shot hash of the window at POS, kept by every step: every command
and every host move that is not refused. -/
def Obligations.StepKeepsHashOfWindow : Prop :=
  ∀ s t : State, CursorInBounds s → HashOfWindow s → step s = .next t → HashOfWindow t

/-- 20_memory.md R40, R45: BUF keeps its canonical form and stays inside BUF_CAP. -/
def Obligations.StepKeepsBufferWellFormed : Prop :=
  ∀ s t : State, BufferWellFormed s → step s = .next t → BufferWellFormed t

/-- 10_state.md R27 and 43_bulk_roll.md R135: OUT never holds more than OUT_DEPTH words, and a BULKROLL waits
only on a full OUT. -/
def Obligations.StepKeepsStreamWellFormed : Prop :=
  ∀ s t : State, StreamWellFormed s → step s = .next t → StreamWellFormed t

/-- 10_state.md R28 and 60_exceptions.md R160: the block answers only the codes 0x00 to 0x03 and 0x05 to
0x07, and result 0 with every code but 0x00. -/
def Obligations.StepKeepsResponseLegal : Prop :=
  ∀ s t : State, ResponseLegal s → step s = .next t → ResponseLegal t

/-- 20_memory.md R52: from a state whose cursor is in bounds, no step reads BUF at an index that does not
exist. -/
def Obligations.NoReadOutsideTheBuffer : Prop :=
  ∀ (s : State) (f : Fault), CursorInBounds s → step s ≠ .fault f

/-! ### The host's side of the boundary -/

/-- 44_host_adapter.md R147: the digest append, most significant byte first. -/
def Obligations.DigestAppend : Prop :=
  ∀ (front : List Byte) (s : State),
    (s.instValid = true →
      ∃ b0 b1 b2 b3 b4 b5 b6 b7 : Byte,
        adapterSum front s = some (front ++ [b7, b6, b5, b4, b3, b2, b1, b0]) ∧
        s.hash = b7 ++ b6 ++ b5 ++ b4 ++ b3 ++ b2 ++ b1 ++ b0) ∧
    (s.instValid = false → adapterSum front s = none)

/-- 44_host_adapter.md R148, R149, R150. -/
def Obligations.AdapterConstants : Prop :=
  adapterSize = 8 ∧ adapterBlockSize = 1 ∧
    ∀ bytes : List Byte, (adapterWrite bytes).error.code = 0x04 ∧
      (adapterWrite bytes).accepted = 0 ∧ (adapterWrite bytes).moves = []

/-- 44_host_adapter.md R152 and 70_reset_and_hazards.md R183: loading a buffer at index 0 and issuing CREATE, by
a host whose moves are log entry 6's, from every state with no instance and a free channel. A buffer that BUF
holds gives the instance with the one-shot hash of the first window, or WINDOW_TOO_LONG for a window longer
than the buffer; a buffer longer than BUF_CAP gives OUT_OF_RANGE, from the block, or from the adapter where
operand B cannot hold the length (log entry 19). -/
def Obligations.LoadThenCreate : Prop :=
  ∀ (buffer : List Byte) (w : Word),
    (2 ^ 32 ≤ buffer.length → adapterCreate buffer w = .fails .outOfRange) ∧
    (buffer.length < 2 ^ 32 →
      ∃ moves, adapterCreate buffer w = .moves moves ∧
        ∀ (s : State) (rest : List HostMove), s.instValid = false → acceptsCommand s = true →
          s.host = moves ++ rest →
            ∃ t, Host.Core.run Sys2Proof.core moves.length s = .next t ∧ t.host = rest ∧
              (buffer.length > s.bufCap.toNat →
                t.instValid = false ∧ readResponse t = some (0x07, 0)) ∧
              (buffer.length ≤ s.bufCap.toNat → w.toNat > buffer.length →
                Loaded t buffer ∧ t.instValid = false ∧ readResponse t = some (0x01, 0)) ∧
              (buffer.length ≤ s.bufCap.toNat → w.toNat ≤ buffer.length →
                Loaded t buffer ∧ t.instValid = true ∧ t.len.toNat = buffer.length ∧
                  t.win.toNat = w.toNat ∧ t.pos = 0 ∧
                  t.hash = oneShotHash s.rom (buffer.take w.toNat) ∧
                  readResponse t = some (0x00, oneShotHash s.rom (buffer.take w.toNat))))

/-- 30_encoding.md R74: the assembler gives the command of a line exactly when every operand fits its
field. -/
def Obligations.AssemblerRefusesWideOperands : Prop :=
  ∀ m n : Nat,
    (m < 2 ^ 32 ∧ n < 2 ^ 64 → assemble (.create m n) = some [.create (BitVec.ofNat 32 m) (BitVec.ofNat 64 n)]) ∧
    (¬(m < 2 ^ 32 ∧ n < 2 ^ 64) → assemble (.create m n) = none) ∧
    (m < 2 ^ 64 → assemble (.roll m) = some [.roll (BitVec.ofNat 64 m)] ∧
      assemble (.bulkroll m) = some [.bulkroll (BitVec.ofNat 64 m)]) ∧
    (2 ^ 64 ≤ m → assemble (.roll m) = none ∧ assemble (.bulkroll m) = none) ∧
    (m < 2 ^ 64 ∧ n < 2 ^ 32 → assemble (.oneshot m n) = some [.oneshot (BitVec.ofNat 64 m) (BitVec.ofNat 32 n)]) ∧
    (¬(m < 2 ^ 64 ∧ n < 2 ^ 32) → assemble (.oneshot m n) = none) ∧
    (m ≤ 255 → assemble (.lookup m) = some [.lookup (BitVec.ofNat 8 m)]) ∧
    (255 < m → assemble (.lookup m) = none)

/-- 30_encoding.md R75: what each pseudo-instruction expands to, as the lines that write the expansion
out. -/
def Obligations.PseudoInstructions : Prop :=
  assemble .stepOne = assemble (.roll 1) ∧
  (∀ n : Nat, assemble (.hash n) = assemble (.oneshot 0 n)) ∧
  (∀ p : Nat, assemble (.seek p) =
    match assemble .reset, assemble (.roll p) with
    | some first, some second => some (first ++ second)
    | _, _ => none) ∧
  ∀ (s t u : State) (p : Word), exec .reset s = .next t → exec (.roll p) t = .next u →
    u.rspStatus = 0x02 → u.pos = 0
end

