-- ==== Sys2Proof/Laws/State.lean ====
section
/-! SUPPORT. What each named update of State leaves in each field, so that no proof unfolds an update. -/
namespace Sys2Proof.Machine

/-! ### respond -/

@[simp] theorem respond_instValid (e : Status) (r : Word) (s : State) :
    (respond e r s).instValid = s.instValid := rfl

@[simp] theorem respond_len (e : Status) (r : Word) (s : State) :
    (respond e r s).len = s.len := rfl

@[simp] theorem respond_win (e : Status) (r : Word) (s : State) :
    (respond e r s).win = s.win := rfl

@[simp] theorem respond_pos (e : Status) (r : Word) (s : State) :
    (respond e r s).pos = s.pos := rfl

@[simp] theorem respond_hash (e : Status) (r : Word) (s : State) :
    (respond e r s).hash = s.hash := rfl

@[simp] theorem respond_out (e : Status) (r : Word) (s : State) :
    (respond e r s).out = s.out := rfl

@[simp] theorem respond_bulk (e : Status) (r : Word) (s : State) :
    (respond e r s).bulk = s.bulk := rfl

@[simp] theorem respond_rspStatus (e : Status) (r : Word) (s : State) :
    (respond e r s).rspStatus = e.code := rfl

@[simp] theorem respond_rspResult (e : Status) (r : Word) (s : State) :
    (respond e r s).rspResult = r := rfl

@[simp] theorem respond_rspPhase (e : Status) (r : Word) (s : State) :
    (respond e r s).rspPhase = .held := rfl

@[simp] theorem respond_buf (e : Status) (r : Word) (s : State) :
    (respond e r s).buf = s.buf := rfl

@[simp] theorem respond_bufCap (e : Status) (r : Word) (s : State) :
    (respond e r s).bufCap = s.bufCap := rfl

@[simp] theorem respond_rom (e : Status) (r : Word) (s : State) :
    (respond e r s).rom = s.rom := rfl

@[simp] theorem respond_outDepth (e : Status) (r : Word) (s : State) :
    (respond e r s).outDepth = s.outDepth := rfl

@[simp] theorem respond_bulkImpl (e : Status) (r : Word) (s : State) :
    (respond e r s).bulkImpl = s.bulkImpl := rfl

@[simp] theorem respond_host (e : Status) (r : Word) (s : State) :
    (respond e r s).host = s.host := rfl

/-! ### raise -/

@[simp] theorem raise_instValid (e : Status) (s : State) :
    (raise e s).instValid = s.instValid := rfl

@[simp] theorem raise_len (e : Status) (s : State) :
    (raise e s).len = s.len := rfl

@[simp] theorem raise_win (e : Status) (s : State) :
    (raise e s).win = s.win := rfl

@[simp] theorem raise_pos (e : Status) (s : State) :
    (raise e s).pos = s.pos := rfl

@[simp] theorem raise_hash (e : Status) (s : State) :
    (raise e s).hash = s.hash := rfl

@[simp] theorem raise_out (e : Status) (s : State) :
    (raise e s).out = s.out := rfl

@[simp] theorem raise_bulk (e : Status) (s : State) :
    (raise e s).bulk = s.bulk := rfl

@[simp] theorem raise_rspStatus (e : Status) (s : State) :
    (raise e s).rspStatus = e.code := rfl

@[simp] theorem raise_rspResult (e : Status) (s : State) :
    (raise e s).rspResult = 0 := rfl

@[simp] theorem raise_rspPhase (e : Status) (s : State) :
    (raise e s).rspPhase = .held := rfl

@[simp] theorem raise_buf (e : Status) (s : State) :
    (raise e s).buf = s.buf := rfl

@[simp] theorem raise_bufCap (e : Status) (s : State) :
    (raise e s).bufCap = s.bufCap := rfl

@[simp] theorem raise_rom (e : Status) (s : State) :
    (raise e s).rom = s.rom := rfl

@[simp] theorem raise_outDepth (e : Status) (s : State) :
    (raise e s).outDepth = s.outDepth := rfl

@[simp] theorem raise_bulkImpl (e : Status) (s : State) :
    (raise e s).bulkImpl = s.bulkImpl := rfl

@[simp] theorem raise_host (e : Status) (s : State) :
    (raise e s).host = s.host := rfl

/-! ### setInstance -/

@[simp] theorem setInstance_instValid (l w : U32) (h : Word) (s : State) :
    (setInstance l w h s).instValid = true := rfl

@[simp] theorem setInstance_len (l w : U32) (h : Word) (s : State) :
    (setInstance l w h s).len = l := rfl

@[simp] theorem setInstance_win (l w : U32) (h : Word) (s : State) :
    (setInstance l w h s).win = w := rfl

@[simp] theorem setInstance_pos (l w : U32) (h : Word) (s : State) :
    (setInstance l w h s).pos = 0 := rfl

@[simp] theorem setInstance_hash (l w : U32) (h : Word) (s : State) :
    (setInstance l w h s).hash = h := rfl

@[simp] theorem setInstance_out (l w : U32) (h : Word) (s : State) :
    (setInstance l w h s).out = s.out := rfl

@[simp] theorem setInstance_bulk (l w : U32) (h : Word) (s : State) :
    (setInstance l w h s).bulk = s.bulk := rfl

@[simp] theorem setInstance_rspStatus (l w : U32) (h : Word) (s : State) :
    (setInstance l w h s).rspStatus = s.rspStatus := rfl

@[simp] theorem setInstance_rspResult (l w : U32) (h : Word) (s : State) :
    (setInstance l w h s).rspResult = s.rspResult := rfl

@[simp] theorem setInstance_rspPhase (l w : U32) (h : Word) (s : State) :
    (setInstance l w h s).rspPhase = s.rspPhase := rfl

@[simp] theorem setInstance_buf (l w : U32) (h : Word) (s : State) :
    (setInstance l w h s).buf = s.buf := rfl

@[simp] theorem setInstance_bufCap (l w : U32) (h : Word) (s : State) :
    (setInstance l w h s).bufCap = s.bufCap := rfl

@[simp] theorem setInstance_rom (l w : U32) (h : Word) (s : State) :
    (setInstance l w h s).rom = s.rom := rfl

@[simp] theorem setInstance_outDepth (l w : U32) (h : Word) (s : State) :
    (setInstance l w h s).outDepth = s.outDepth := rfl

@[simp] theorem setInstance_bulkImpl (l w : U32) (h : Word) (s : State) :
    (setInstance l w h s).bulkImpl = s.bulkImpl := rfl

@[simp] theorem setInstance_host (l w : U32) (h : Word) (s : State) :
    (setInstance l w h s).host = s.host := rfl

/-! ### setCursor -/

@[simp] theorem setCursor_instValid (p : U32) (h : Word) (s : State) :
    (setCursor p h s).instValid = s.instValid := rfl

@[simp] theorem setCursor_len (p : U32) (h : Word) (s : State) :
    (setCursor p h s).len = s.len := rfl

@[simp] theorem setCursor_win (p : U32) (h : Word) (s : State) :
    (setCursor p h s).win = s.win := rfl

@[simp] theorem setCursor_pos (p : U32) (h : Word) (s : State) :
    (setCursor p h s).pos = p := rfl

@[simp] theorem setCursor_hash (p : U32) (h : Word) (s : State) :
    (setCursor p h s).hash = h := rfl

@[simp] theorem setCursor_out (p : U32) (h : Word) (s : State) :
    (setCursor p h s).out = s.out := rfl

@[simp] theorem setCursor_bulk (p : U32) (h : Word) (s : State) :
    (setCursor p h s).bulk = s.bulk := rfl

@[simp] theorem setCursor_rspStatus (p : U32) (h : Word) (s : State) :
    (setCursor p h s).rspStatus = s.rspStatus := rfl

@[simp] theorem setCursor_rspResult (p : U32) (h : Word) (s : State) :
    (setCursor p h s).rspResult = s.rspResult := rfl

@[simp] theorem setCursor_rspPhase (p : U32) (h : Word) (s : State) :
    (setCursor p h s).rspPhase = s.rspPhase := rfl

@[simp] theorem setCursor_buf (p : U32) (h : Word) (s : State) :
    (setCursor p h s).buf = s.buf := rfl

@[simp] theorem setCursor_bufCap (p : U32) (h : Word) (s : State) :
    (setCursor p h s).bufCap = s.bufCap := rfl

@[simp] theorem setCursor_rom (p : U32) (h : Word) (s : State) :
    (setCursor p h s).rom = s.rom := rfl

@[simp] theorem setCursor_outDepth (p : U32) (h : Word) (s : State) :
    (setCursor p h s).outDepth = s.outDepth := rfl

@[simp] theorem setCursor_bulkImpl (p : U32) (h : Word) (s : State) :
    (setCursor p h s).bulkImpl = s.bulkImpl := rfl

@[simp] theorem setCursor_host (p : U32) (h : Word) (s : State) :
    (setCursor p h s).host = s.host := rfl

/-! ### takeResponse -/

@[simp] theorem takeResponse_instValid (s : State) :
    (takeResponse s).instValid = s.instValid := rfl

@[simp] theorem takeResponse_len (s : State) :
    (takeResponse s).len = s.len := rfl

@[simp] theorem takeResponse_win (s : State) :
    (takeResponse s).win = s.win := rfl

@[simp] theorem takeResponse_pos (s : State) :
    (takeResponse s).pos = s.pos := rfl

@[simp] theorem takeResponse_hash (s : State) :
    (takeResponse s).hash = s.hash := rfl

@[simp] theorem takeResponse_out (s : State) :
    (takeResponse s).out = s.out := rfl

@[simp] theorem takeResponse_bulk (s : State) :
    (takeResponse s).bulk = s.bulk := rfl

@[simp] theorem takeResponse_rspStatus (s : State) :
    (takeResponse s).rspStatus = s.rspStatus := rfl

@[simp] theorem takeResponse_rspResult (s : State) :
    (takeResponse s).rspResult = s.rspResult := rfl

@[simp] theorem takeResponse_rspPhase (s : State) :
    (takeResponse s).rspPhase = .taken := rfl

@[simp] theorem takeResponse_buf (s : State) :
    (takeResponse s).buf = s.buf := rfl

@[simp] theorem takeResponse_bufCap (s : State) :
    (takeResponse s).bufCap = s.bufCap := rfl

@[simp] theorem takeResponse_rom (s : State) :
    (takeResponse s).rom = s.rom := rfl

@[simp] theorem takeResponse_outDepth (s : State) :
    (takeResponse s).outDepth = s.outDepth := rfl

@[simp] theorem takeResponse_bulkImpl (s : State) :
    (takeResponse s).bulkImpl = s.bulkImpl := rfl

@[simp] theorem takeResponse_host (s : State) :
    (takeResponse s).host = s.host := rfl

/-! ### blockReset -/

@[simp] theorem blockReset_instValid (s : State) :
    (blockReset s).instValid = false := rfl

@[simp] theorem blockReset_len (s : State) :
    (blockReset s).len = 0 := rfl

@[simp] theorem blockReset_win (s : State) :
    (blockReset s).win = 0 := rfl

@[simp] theorem blockReset_pos (s : State) :
    (blockReset s).pos = 0 := rfl

@[simp] theorem blockReset_hash (s : State) :
    (blockReset s).hash = 0 := rfl

@[simp] theorem blockReset_out (s : State) :
    (blockReset s).out = [] := rfl

@[simp] theorem blockReset_bulk (s : State) :
    (blockReset s).bulk = none := rfl

@[simp] theorem blockReset_rspStatus (s : State) :
    (blockReset s).rspStatus = 0 := rfl

@[simp] theorem blockReset_rspResult (s : State) :
    (blockReset s).rspResult = 0 := rfl

@[simp] theorem blockReset_rspPhase (s : State) :
    (blockReset s).rspPhase = .empty := rfl

@[simp] theorem blockReset_buf (s : State) :
    (blockReset s).buf = [] := rfl

@[simp] theorem blockReset_bufCap (s : State) :
    (blockReset s).bufCap = s.bufCap := rfl

@[simp] theorem blockReset_rom (s : State) :
    (blockReset s).rom = s.rom := rfl

@[simp] theorem blockReset_outDepth (s : State) :
    (blockReset s).outDepth = s.outDepth := rfl

@[simp] theorem blockReset_bulkImpl (s : State) :
    (blockReset s).bulkImpl = s.bulkImpl := rfl

@[simp] theorem blockReset_host (s : State) :
    (blockReset s).host = s.host := rfl

/-! ### freeChannel -/

@[simp] theorem freeChannel_instValid (s : State) :
    (freeChannel s).instValid = s.instValid := rfl

@[simp] theorem freeChannel_len (s : State) :
    (freeChannel s).len = s.len := rfl

@[simp] theorem freeChannel_win (s : State) :
    (freeChannel s).win = s.win := rfl

@[simp] theorem freeChannel_pos (s : State) :
    (freeChannel s).pos = s.pos := rfl

@[simp] theorem freeChannel_hash (s : State) :
    (freeChannel s).hash = s.hash := rfl

@[simp] theorem freeChannel_out (s : State) :
    (freeChannel s).out = s.out := rfl

@[simp] theorem freeChannel_bulk (s : State) :
    (freeChannel s).bulk = none := rfl

@[simp] theorem freeChannel_rspStatus (s : State) :
    (freeChannel s).rspStatus = s.rspStatus := rfl

@[simp] theorem freeChannel_rspResult (s : State) :
    (freeChannel s).rspResult = s.rspResult := rfl

@[simp] theorem freeChannel_rspPhase (s : State) :
    (freeChannel s).rspPhase = if s.rspPhase = .held then .taken else s.rspPhase := rfl

@[simp] theorem freeChannel_buf (s : State) :
    (freeChannel s).buf = s.buf := rfl

@[simp] theorem freeChannel_bufCap (s : State) :
    (freeChannel s).bufCap = s.bufCap := rfl

@[simp] theorem freeChannel_rom (s : State) :
    (freeChannel s).rom = s.rom := rfl

@[simp] theorem freeChannel_outDepth (s : State) :
    (freeChannel s).outDepth = s.outDepth := rfl

@[simp] theorem freeChannel_bulkImpl (s : State) :
    (freeChannel s).bulkImpl = s.bulkImpl := rfl

@[simp] theorem freeChannel_host (s : State) :
    (freeChannel s).host = s.host := rfl

/-! ### withFetchWord -/

@[simp] theorem withFetchWord_instValid (s : State) (n w : Nat) :
    (s.withFetchWord n w).instValid = s.instValid := rfl

@[simp] theorem withFetchWord_len (s : State) (n w : Nat) :
    (s.withFetchWord n w).len = s.len := rfl

@[simp] theorem withFetchWord_win (s : State) (n w : Nat) :
    (s.withFetchWord n w).win = s.win := rfl

@[simp] theorem withFetchWord_pos (s : State) (n w : Nat) :
    (s.withFetchWord n w).pos = s.pos := rfl

@[simp] theorem withFetchWord_hash (s : State) (n w : Nat) :
    (s.withFetchWord n w).hash = s.hash := rfl

@[simp] theorem withFetchWord_out (s : State) (n w : Nat) :
    (s.withFetchWord n w).out = s.out := rfl

@[simp] theorem withFetchWord_bulk (s : State) (n w : Nat) :
    (s.withFetchWord n w).bulk = none := rfl

@[simp] theorem withFetchWord_rspStatus (s : State) (n w : Nat) :
    (s.withFetchWord n w).rspStatus = s.rspStatus := rfl

@[simp] theorem withFetchWord_rspResult (s : State) (n w : Nat) :
    (s.withFetchWord n w).rspResult = s.rspResult := rfl

@[simp] theorem withFetchWord_rspPhase (s : State) (n w : Nat) :
    (s.withFetchWord n w).rspPhase = if s.rspPhase = .held then .taken else s.rspPhase := rfl

@[simp] theorem withFetchWord_buf (s : State) (n w : Nat) :
    (s.withFetchWord n w).buf = s.buf := rfl

@[simp] theorem withFetchWord_bufCap (s : State) (n w : Nat) :
    (s.withFetchWord n w).bufCap = s.bufCap := rfl

@[simp] theorem withFetchWord_rom (s : State) (n w : Nat) :
    (s.withFetchWord n w).rom = s.rom := rfl

@[simp] theorem withFetchWord_outDepth (s : State) (n w : Nat) :
    (s.withFetchWord n w).outDepth = s.outDepth := rfl

@[simp] theorem withFetchWord_bulkImpl (s : State) (n w : Nat) :
    (s.withFetchWord n w).bulkImpl = s.bulkImpl := rfl

@[simp] theorem withFetchWord_host (s : State) (n w : Nat) :
    (s.withFetchWord n w).host = .command (BitVec.ofNat 128 (w % 2 ^ n)) :: s.host := rfl

/-! ### streamOut and takeOut: the fields they never write -/

@[simp] theorem streamOut_instValid (ws : List Word) (k : Word) (s : State) :
    (streamOut ws k s).instValid = s.instValid := by
  unfold streamOut; split <;> rfl

@[simp] theorem streamOut_len (ws : List Word) (k : Word) (s : State) :
    (streamOut ws k s).len = s.len := by
  unfold streamOut; split <;> rfl

@[simp] theorem streamOut_win (ws : List Word) (k : Word) (s : State) :
    (streamOut ws k s).win = s.win := by
  unfold streamOut; split <;> rfl

@[simp] theorem streamOut_pos (ws : List Word) (k : Word) (s : State) :
    (streamOut ws k s).pos = s.pos := by
  unfold streamOut; split <;> rfl

@[simp] theorem streamOut_hash (ws : List Word) (k : Word) (s : State) :
    (streamOut ws k s).hash = s.hash := by
  unfold streamOut; split <;> rfl

@[simp] theorem streamOut_buf (ws : List Word) (k : Word) (s : State) :
    (streamOut ws k s).buf = s.buf := by
  unfold streamOut; split <;> rfl

@[simp] theorem streamOut_bufCap (ws : List Word) (k : Word) (s : State) :
    (streamOut ws k s).bufCap = s.bufCap := by
  unfold streamOut; split <;> rfl

@[simp] theorem streamOut_rom (ws : List Word) (k : Word) (s : State) :
    (streamOut ws k s).rom = s.rom := by
  unfold streamOut; split <;> rfl

@[simp] theorem streamOut_outDepth (ws : List Word) (k : Word) (s : State) :
    (streamOut ws k s).outDepth = s.outDepth := by
  unfold streamOut; split <;> rfl

@[simp] theorem streamOut_bulkImpl (ws : List Word) (k : Word) (s : State) :
    (streamOut ws k s).bulkImpl = s.bulkImpl := by
  unfold streamOut; split <;> rfl

@[simp] theorem streamOut_host (ws : List Word) (k : Word) (s : State) :
    (streamOut ws k s).host = s.host := by
  unfold streamOut; split <;> rfl

@[simp] theorem takeOut_instValid (s : State) : (takeOut s).instValid = s.instValid := by
  unfold takeOut; split <;> simp

@[simp] theorem takeOut_len (s : State) : (takeOut s).len = s.len := by
  unfold takeOut; split <;> simp

@[simp] theorem takeOut_win (s : State) : (takeOut s).win = s.win := by
  unfold takeOut; split <;> simp

@[simp] theorem takeOut_pos (s : State) : (takeOut s).pos = s.pos := by
  unfold takeOut; split <;> simp

@[simp] theorem takeOut_hash (s : State) : (takeOut s).hash = s.hash := by
  unfold takeOut; split <;> simp

@[simp] theorem takeOut_buf (s : State) : (takeOut s).buf = s.buf := by
  unfold takeOut; split <;> simp

@[simp] theorem takeOut_bufCap (s : State) : (takeOut s).bufCap = s.bufCap := by
  unfold takeOut; split <;> simp

@[simp] theorem takeOut_rom (s : State) : (takeOut s).rom = s.rom := by
  unfold takeOut; split <;> simp

@[simp] theorem takeOut_outDepth (s : State) : (takeOut s).outDepth = s.outDepth := by
  unfold takeOut; split <;> simp

@[simp] theorem takeOut_bulkImpl (s : State) : (takeOut s).bulkImpl = s.bulkImpl := by
  unfold takeOut; split <;> simp

@[simp] theorem takeOut_host (s : State) : (takeOut s).host = s.host := by
  unfold takeOut; split <;> simp

end Sys2Proof.Machine
end

