-- ==== Sys2Proof/Laws/Ops.lean ====
section
/-! SUPPORT. What each shared operation can do, said once: `andThen`, BUF, ranges, RollStep and its
repetition, the BULKROLL loop, the output stream. -/
namespace Sys2Proof.Machine

/-! ### andThen -/

@[simp] theorem andThen_next {α β : Type} (a : α) (k : α → Result β) :
    Result.andThen (.next a) k = k a := rfl

@[simp] theorem andThen_fault {α β : Type} (f : Fault) (k : α → Result β) :
    Result.andThen (.fault f : Result α) k = .fault f := rfl

@[simp] theorem andThen_refused {α β : Type} (e : Refusal) (k : α → Result β) :
    Result.andThen (.refused e : Result α) k = .refused e := rfl

/-- A sequence answers a value exactly where both parts do. -/
theorem andThen_eq_next {α β : Type} {r : Result α} {k : α → Result β} {b : β} :
    Result.andThen r k = .next b ↔ ∃ a, r = .next a ∧ k a = .next b := by
  cases r <;> simp

/-- A sequence faults where its first part faults, or its second after a value of the first. -/
theorem andThen_eq_fault {α β : Type} {r : Result α} {k : α → Result β} {f : Fault} :
    Result.andThen r k = .fault f ↔ r = .fault f ∨ ∃ a, r = .next a ∧ k a = .fault f := by
  cases r <;> simp

theorem andThen_assoc {α β γ : Type} (r : Result α) (k : α → Result β) (k' : β → Result γ) :
    Result.andThen (Result.andThen r k) k' = Result.andThen r fun a => Result.andThen (k a) k' := by
  cases r <;> rfl

/-! ### BUF as a list -/

theorem Memory.risesFrom_mono {a b : Nat} {m : Memory} (hab : a ≤ b) (h : Memory.risesFrom b m = true) :
    Memory.risesFrom a m = true := by
  cases m with
  | nil => rfl
  | cons c m =>
    simp only [Memory.risesFrom, Bool.and_eq_true, decide_eq_true_eq] at h ⊢
    exact ⟨by omega, h.2⟩

theorem Memory.read_eq_none_of_risesFrom {a i : Nat} {m : Memory} (h : Memory.risesFrom a m = true) (hi : i ≤ a) :
    Memory.read m i = none := by
  induction m generalizing a with
  | nil => rfl
  | cons c m ih =>
    simp only [Memory.risesFrom, Bool.and_eq_true, decide_eq_true_eq] at h
    simp only [Memory.read]
    rw [if_neg (by omega)]
    exact ih h.2 (by omega)

/-- A read after a write to the same place gives the value written. -/
@[simp] theorem Memory.read_write_same (m : Memory) (i : Nat) (v : Byte) : Memory.read (Memory.write m i v) i = some v := by
  induction m with
  | nil => simp [Memory.write, Memory.read]
  | cons c m ih =>
    simp only [Memory.write]
    split
    · simp [Memory.read]
    · split
      · simp [Memory.read]
      · simp only [Memory.read, ih]
        rw [if_neg (by omega)]

/-- A write leaves every other place alone. -/
theorem Memory.read_write_other {m : Memory} {i j : Nat} (v : Byte) (h : j ≠ i) :
    Memory.read (Memory.write m i v) j = Memory.read m j := by
  induction m with
  | nil => simp [Memory.write, Memory.read, Ne.symm h]
  | cons c m ih =>
    simp only [Memory.write]
    split
    · simp [Memory.read, Ne.symm h]
    · split
      · rename_i heq
        simp [Memory.read, Ne.symm h, ← heq]
      · simp only [Memory.read, ih]

theorem Memory.risesFrom_write {a i : Nat} {m : Memory} {v : Byte} (hai : a < i) (h : Memory.risesFrom a m = true) :
    Memory.risesFrom a (Memory.write m i v) = true := by
  induction m generalizing a with
  | nil => simp [Memory.write, Memory.risesFrom, hai]
  | cons c m ih =>
    simp only [Memory.risesFrom, Bool.and_eq_true, decide_eq_true_eq] at h
    simp only [Memory.write]
    split
    · simp only [Memory.risesFrom, Bool.and_eq_true, decide_eq_true_eq]
      exact ⟨hai, by omega, h.2⟩
    · split
      · rename_i heq
        simp only [Memory.risesFrom, Bool.and_eq_true, decide_eq_true_eq]
        exact ⟨hai, heq ▸ h.2⟩
      · simp only [Memory.risesFrom, Bool.and_eq_true, decide_eq_true_eq]
        exact ⟨h.1, ih (by omega) h.2⟩

/-- A write keeps the canonical form; it is the only operation that makes a memory from a memory. -/
theorem Memory.wf_write {m : Memory} (i : Nat) (v : Byte) (h : Memory.wf m = true) : Memory.wf (Memory.write m i v) = true := by
  cases m with
  | nil => rfl
  | cons c m =>
    simp only [Memory.wf] at h
    simp only [Memory.write]
    split
    · rename_i hlt
      simp only [Memory.wf, Memory.risesFrom, Bool.and_eq_true, decide_eq_true_eq]
      exact ⟨hlt, h⟩
    · split
      · rename_i heq
        simpa [Memory.wf, heq] using h
      · simp only [Memory.wf]
        exact Memory.risesFrom_write (by omega) h

/-- The empty memory, which reset leaves, has the canonical form. -/
theorem Memory.wf_nil : Memory.wf [] = true := rfl

/-- Every listed cell of a written memory is the written one or was listed before. -/
theorem Memory.mem_write {m : Memory} {i : Nat} {v : Byte} {c : Host.Cell} (h : c ∈ Memory.write m i v) :
    c = (i, v) ∨ c ∈ m := by
  induction m with
  | nil => simpa [Memory.write] using h
  | cons d m ih =>
    simp only [Memory.write] at h
    split at h
    · simpa using h
    · split at h
      · simp only [List.mem_cons] at h ⊢
        exact h.imp_right .inr
      · simp only [List.mem_cons] at h ⊢
        rcases h with h | h
        · exact .inr (.inl h)
        · exact (ih h).imp_right .inr

/-! ### Reads of BUF -/

/-- A read answers exactly the written byte of an index that exists. -/
theorem readBuf_eq_next {s : State} {i : Nat} {b : Byte} :
    readBuf s i = .next b ↔ i < s.bufCap.toNat ∧ s.buf.read i = some b := by
  unfold readBuf
  split
  · simp; omega
  · split <;> rename_i h <;> simp [h]
    omega

/-- A read faults exactly at an index that does not exist. -/
theorem readBuf_eq_fault {s : State} {i : Nat} {f : Fault} :
    readBuf s i = .fault f ↔ s.bufCap.toNat ≤ i ∧ f = .bufIndexOutOfRange i := by
  unfold readBuf
  split
  · simp [*, eq_comm]
  · split <;> simp [*]

/-- Reads see BUF and its size, nothing else of the state. -/
theorem readBuf_congr {s t : State} (hb : t.buf = s.buf) (hc : t.bufCap = s.bufCap) (i : Nat) :
    readBuf t i = readBuf s i := by
  unfold readBuf; rw [hb, hc]

theorem readRange_congr {s t : State} (hb : t.buf = s.buf) (hc : t.bufCap = s.bufCap) (i n : Nat) :
    readRange t i n = readRange s i n := by
  induction n generalizing i with
  | zero => rfl
  | succ n ih => simp only [readRange, readBuf_congr hb hc, ih]

/-- What a range read answers: as many bytes as asked for, each the read of its index. -/
theorem readRange_eq_next {s : State} {i n : Nat} {bs : List Byte} :
    readRange s i n = .next bs ↔
      bs.length = n ∧ ∀ k, (h : k < bs.length) → readBuf s (i + k) = .next bs[k] := by
  induction n generalizing i bs with
  | zero =>
    simp only [readRange, Host.Outcome.next.injEq, List.length_eq_zero_iff]
    constructor
    · rintro rfl; simp
    · rintro ⟨rfl, -⟩; rfl
  | succ n ih =>
    simp only [readRange, andThen_eq_next, Host.Outcome.next.injEq]
    constructor
    · rintro ⟨b, hb, bs', hbs', rfl⟩
      obtain ⟨hl, hr⟩ := ih.1 hbs'
      refine ⟨by simp [hl], fun k hk => ?_⟩
      cases k with
      | zero => simpa using hb
      | succ k =>
        have := hr k (by simpa using hk)
        simpa [Nat.add_assoc, Nat.add_comm 1 k] using this
    · rintro ⟨hl, hr⟩
      cases bs with
      | nil => simp at hl
      | cons b bs =>
        refine ⟨b, by have h0 := hr 0 (by simp); rwa [Nat.add_zero] at h0, bs, ih.2 ⟨by simpa using hl, fun k hk => ?_⟩, rfl⟩
        have := hr (k + 1) (by simpa using hk)
        simpa [Nat.add_assoc, Nat.add_comm 1 k] using this

theorem readRange_length {s : State} {i n : Nat} {bs : List Byte} (h : readRange s i n = .next bs) :
    bs.length = n :=
  (readRange_eq_next.1 h).1

/-- A range that ends inside BUF never faults. -/
theorem readRange_ne_fault {s : State} {i n : Nat} (h : i + n ≤ s.bufCap.toNat) (f : Fault) :
    readRange s i n ≠ .fault f := by
  induction n generalizing i with
  | zero => simp [readRange]
  | succ n ih =>
    simp only [readRange, ne_eq, andThen_eq_fault, readBuf_eq_fault, not_or, not_exists, not_and]
    exact ⟨by omega, fun b _ => ⟨ih (by omega), fun _ _ => nofun⟩⟩

/-! ### Repeated RollStep -/

/-- Advances may be grouped in any way. -/
theorem rollSteps_add (s : State) (m n : Nat) (c : Working) :
    rollSteps s (m + n) c = Result.andThen (rollSteps s m c) (rollSteps s n) := by
  induction m generalizing c with
  | zero => simp [rollSteps]
  | succ m ih => simp only [Nat.succ_add, rollSteps, ih, andThen_assoc]

/-- An advance moves the position by one. -/
theorem rollStep_position {s : State} {c c' : Working} (h : rollStep s c = .next c') :
    c'.1 = c.1 + 1 := by
  simp only [rollStep, andThen_eq_next, Host.Outcome.next.injEq] at h
  obtain ⟨_, _, _, _, rfl⟩ := h
  rfl

/-- `n` advances move the position by `n`. -/
theorem rollSteps_position {s : State} {n : Nat} {c c' : Working} (h : rollSteps s n c = .next c') :
    c'.1 = c.1 + n := by
  induction n generalizing c with
  | zero => cases h; rfl
  | succ n ih =>
    simp only [rollSteps, andThen_eq_next] at h
    obtain ⟨d, hd, h⟩ := h
    rw [ih h, rollStep_position hd]
    omega

/-- Advances that end inside BUF never fault. -/
theorem rollSteps_ne_fault {s : State} {n : Nat} {c : Working}
    (h : c.1 + n + s.win.toNat ≤ s.bufCap.toNat) (f : Fault) : rollSteps s n c ≠ .fault f := by
  induction n generalizing c with
  | zero => simp [rollSteps]
  | succ n ih =>
    simp only [rollSteps, rollStep, ne_eq, andThen_eq_fault, andThen_eq_next, readBuf_eq_fault]
    rintro ((h1 | ⟨_, _, h1 | ⟨_, _, h1⟩⟩) | ⟨d, ⟨_, _, _, _, hd⟩, h2⟩)
    · omega
    · omega
    · cases h1
    · cases hd
      exact ih (by simp only; omega) h2

/-- An advance sees BUF, its size, the ROM and WIN, nothing else of the state. -/
theorem rollStep_congr {s t : State} (hb : t.buf = s.buf) (hc : t.bufCap = s.bufCap) (hr : t.rom = s.rom)
    (hw : t.win = s.win) (c : Working) : rollStep t c = rollStep s c := by
  simp only [rollStep, readBuf_congr hb hc, hr, hw]

theorem rollSteps_congr {s t : State} (hb : t.buf = s.buf) (hc : t.bufCap = s.bufCap) (hr : t.rom = s.rom)
    (hw : t.win = s.win) (n : Nat) (c : Working) : rollSteps t n c = rollSteps s n c := by
  induction n generalizing c with
  | zero => rfl
  | succ n ih => simp only [rollSteps, rollStep_congr hb hc hr hw, ih]

theorem hashRange_congr {s t : State} (hb : t.buf = s.buf) (hc : t.bufCap = s.bufCap) (hr : t.rom = s.rom)
    (i n : Nat) : hashRange t i n = hashRange s i n := by
  simp only [hashRange, readRange_congr hb hc, hr]

/-! ### The BULKROLL loop -/

/-- The loop sees what an advance sees, and LEN. -/
theorem bulkWords_congr {s t : State} (hb : t.buf = s.buf) (hc : t.bufCap = s.bufCap) (hr : t.rom = s.rom)
    (hw : t.win = s.win) (hl : t.len = s.len) (stride fuel : Nat) (c : Working) :
    bulkWords t stride fuel c = bulkWords s stride fuel c := by
  induction fuel generalizing c with
  | zero => rfl
  | succ fuel ih => simp only [bulkWords, hw, hl, rollSteps_congr hb hc hr hw, ih]

/-- The loop always emits the hash it starts with, first. -/
theorem bulkWords_head {s : State} {stride fuel : Nat} {c : Working} {ws : List Word}
    (h : bulkWords s stride fuel c = .next ws) : ∃ rest, ws = c.2 :: rest := by
  cases fuel with
  | zero => cases h; exact ⟨_, rfl⟩
  | succ fuel =>
    simp only [bulkWords] at h
    split at h
    · cases h; exact ⟨_, rfl⟩
    · simp only [andThen_eq_next, Host.Outcome.next.injEq] at h
      obtain ⟨_, _, _, _, rfl⟩ := h
      exact ⟨_, rfl⟩

/-- A bound of at least the bytes left never ends the loop: with a positive stride every larger bound gives
the same words (log entry 17). -/
theorem bulkWords_fuel {s : State} {stride fuel : Nat} {c : Working} (hs : 0 < stride)
    (hf : s.len.toNat - c.1 ≤ fuel) (more : Nat) :
    bulkWords s stride (fuel + more) c = bulkWords s stride fuel c := by
  induction fuel generalizing c with
  | zero =>
    cases more with
    | zero => rfl
    | succ more => simp only [bulkWords]; rw [if_pos (by omega)]
  | succ fuel ih =>
    rw [Nat.succ_add]
    simp only [bulkWords]
    split
    · rfl
    · cases hr : rollSteps s stride c with
      | next c' =>
        have := rollSteps_position hr
        simp only [andThen_next]
        rw [ih (by omega)]
      | fault f => rfl
      | refused e => rfl

/-! ### The output stream -/

/-- Words that fit go out together and the response follows them. -/
theorem streamOut_fits {ws : List Word} {k : Word} {s : State}
    (h : s.out.length + ws.length ≤ s.outDepth) :
    streamOut ws k s = respond .ok k { s with out := s.out ++ ws, bulk := none } := by
  rw [streamOut, if_pos h]

/-- Words that do not fit fill OUT, and the rest waits without a response. -/
theorem streamOut_waits {ws : List Word} {k : Word} {s : State}
    (h : s.outDepth < s.out.length + ws.length) :
    streamOut ws k s =
      { s with
        out := s.out ++ ws.take (s.outDepth - s.out.length)
        bulk := some { pending := ws.drop (s.outDepth - s.out.length), count := k } } := by
  rw [streamOut, if_neg (by omega)]

end Sys2Proof.Machine
end

