-- ==== Sys2Proof/Laws/PerInstr.lean ====
section
/-! SUPPORT. Statements made per instruction. -/

/-- The fields of every command's word are those of a legal command (30_encoding.md R63, R64). -/
def Sys2Proof.Laws.Legal.Statement (i : Sys2Proof.Instr) : Prop :=
  i.cmd.wellFormed = true

theorem Sys2Proof.Laws.Legal.create (l : Sys2Proof.U32) (w : Sys2Proof.Word) :
    Sys2Proof.Laws.Legal.Statement (.create l w) := rfl

theorem Sys2Proof.Laws.Legal.roll (step : Sys2Proof.Word) :
    Sys2Proof.Laws.Legal.Statement (.roll step) := rfl

theorem Sys2Proof.Laws.Legal.bulkroll (stride : Sys2Proof.Word) :
    Sys2Proof.Laws.Legal.Statement (.bulkroll stride) := rfl

theorem Sys2Proof.Laws.Legal.reset : Sys2Proof.Laws.Legal.Statement .reset := rfl

theorem Sys2Proof.Laws.Legal.position : Sys2Proof.Laws.Legal.Statement .position := rfl

theorem Sys2Proof.Laws.Legal.sum64 : Sys2Proof.Laws.Legal.Statement .sum64 := rfl

theorem Sys2Proof.Laws.Legal.oneshot (start : Sys2Proof.Word) (n : Sys2Proof.U32) :
    Sys2Proof.Laws.Legal.Statement (.oneshot start n) := rfl

theorem Sys2Proof.Laws.Legal.lookup (b : Sys2Proof.Byte) :
    Sys2Proof.Laws.Legal.Statement (.lookup b) := by
  unfold Sys2Proof.Laws.Legal.Statement Sys2Proof.Cmd.wellFormed Sys2Proof.Instr.cmd
  have h : (b.setWidth 32).toNat < 256 := by
    rw [BitVec.toNat_setWidth]
    have := b.isLt
    omega
  simp only [h, decide_true, Bool.or_true, Bool.and_true]
  rfl
end

