-- ==== Sys2Proof/Laws/Step.lean ====
section
/-! SUPPORT. What one step can do, said once, and the updates in the terms of Safety.lean. -/
namespace Sys2Proof.Machine

theorem respond_eq_answered (e : Status) (r : Word) (s : State) :
    respond e r s = answered s e.code r := rfl

theorem raise_eq_answered (e : Status) (s : State) : raise e s = answered s e.code 0 := rfl

/-- The memory reset leaves has the canonical form. -/
theorem reset_buf_wf : State.reset.buf.wf = true := rfl

/-- The accepted move stands somewhere in the host's list, its port accepts it, every earlier move waits,
and the others stay in order. -/
theorem nextMove_eq_some {s : State} {l : List HostMove} {m : HostMove} {rest : List HostMove}
    (h : nextMove s l = some (m, rest)) :
    ∃ waiting later, l = waiting ++ m :: later ∧ rest = waiting ++ later ∧ accepts s m = true ∧
      ∀ x ∈ waiting, accepts s x = false := by
  induction l generalizing rest with
  | nil => simp [nextMove] at h
  | cons x l ih =>
    simp only [nextMove] at h
    split at h
    · rename_i hx
      obtain ⟨rfl, rfl⟩ := Prod.mk.inj (Option.some.inj h)
      exact ⟨[], l, rfl, rfl, hx, by simp⟩
    · rename_i hx
      split at h
      · cases h
      · rename_i m' rest' hl
        obtain ⟨rfl, rfl⟩ := Prod.mk.inj (Option.some.inj h)
        obtain ⟨waiting, later, rfl, rfl, ha, hw⟩ := ih hl
        refine ⟨x :: waiting, later, rfl, rfl, ha, fun y hy => ?_⟩
        rcases List.mem_cons.1 hy with rfl | hy
        · simpa using hx
        · exact hw y hy

/-- No move is accepted exactly when every one waits. -/
theorem nextMove_eq_none {s : State} {l : List HostMove} :
    nextMove s l = none ↔ ∀ m ∈ l, accepts s m = false := by
  induction l with
  | nil => simp [nextMove]
  | cons x l ih =>
    simp only [nextMove, List.forall_mem_cons]
    split
    · simp_all
    · rename_i hx
      split
      · rename_i hl
        simpa [hx] using ih.1 hl
      · rename_i hl
        simp only [reduceCtorEq, false_iff, not_and]
        intro _ hall
        rw [ih.2 hall] at hl
        cases hl

theorem nextMove_accepts {s : State} {l : List HostMove} {m : HostMove} {rest : List HostMove}
    (h : nextMove s l = some (m, rest)) : accepts s m = true := by
  obtain ⟨_, _, _, _, ha, _⟩ := nextMove_eq_some h
  exact ha

/-- A move at the head of the list whose port accepts it is the next one. -/
theorem nextMove_head {s : State} {m : HostMove} {rest : List HostMove} (h : accepts s m = true) :
    nextMove s (m :: rest) = some (m, rest) := by
  simp [nextMove, h]

/-- A step waits, or applies the one accepted move to the state without it. -/
theorem step_eq_next {s t : State} (h : step s = .next t) :
    (nextMove s s.host = none ∧ t = s) ∨
      ∃ m rest, nextMove s s.host = some (m, rest) ∧ accepts s m = true ∧
        applyMove m { s with host := rest } = .next t := by
  unfold step hostStep at h
  split at h
  · rename_i hn
    cases h
    exact .inl ⟨hn, rfl⟩
  · rename_i m rest hn
    exact .inr ⟨m, rest, hn, nextMove_accepts hn, h⟩

theorem step_of_nextMove {s : State} {m : HostMove} {rest : List HostMove}
    (h : nextMove s s.host = some (m, rest)) : step s = applyMove m { s with host := rest } := by
  unfold step hostStep
  rw [h]

theorem step_of_none {s : State} (h : nextMove s s.host = none) : step s = .next s := by
  unfold step hostStep
  rw [h]

/-- A command word is answered ILLEGAL_COMMAND or runs its instruction. -/
theorem runCommand_eq {w : CmdWord} {s : State} :
    (∃ e, decode w = .error e ∧ runCommand w s = .next (raise .illegalCommand s)) ∨
      ∃ i, decode w = .ok i ∧ runCommand w s = exec i s := by
  unfold runCommand
  split
  · exact .inl ⟨_, ‹_›, rfl⟩
  · exact .inr ⟨_, ‹_›, rfl⟩

/-! ### Runs of several steps -/

/-- A run of one step more, when the step answers. -/
theorem run_succ {M : Host.Core} {n : Nat} {s t : M.State} (h : M.step s = .next t) :
    M.run (n + 1) s = M.run n t := by
  show (match M.step s with
    | .next u => M.run n u
    | .fault r => .fault r
    | .refused r => .refused r) = _
  rw [h]

/-- The same for this block. -/
theorem core_run_succ {n : Nat} {s t : State} (h : step s = .next t) :
    Host.Core.run Sys2Proof.core (n + 1) s = Host.Core.run Sys2Proof.core n t :=
  run_succ (M := Sys2Proof.core) h

/-! ### Reads that succeed -/

/-- A range of written bytes inside BUF is read as those bytes. -/
theorem readRange_of_read {s : State} {i : Nat} {bytes : List Byte}
    (hc : i + bytes.length ≤ s.bufCap.toNat)
    (h : ∀ k, (hk : k < bytes.length) → s.buf.read (i + k) = some bytes[k]) :
    readRange s i bytes.length = .next bytes :=
  readRange_eq_next.2 ⟨rfl, fun k hk => readBuf_eq_next.2 ⟨by omega, h k hk⟩⟩

/-- Advances over written bytes inside BUF give the hash of `rolledHash`. -/
theorem rollSteps_of_read {s : State} {byteAt : Nat → Byte} {n p : Nat} {h : Word}
    (hc : n = 0 ∨ p + n + s.win.toNat ≤ s.bufCap.toNat)
    (hr : ∀ k < n, s.buf.read (p + k) = some (byteAt (p + k)) ∧
      s.buf.read (p + k + s.win.toNat) = some (byteAt (p + k + s.win.toNat))) :
    rollSteps s n (p, h) = .next (p + n, rolledHash s.rom byteAt s.win.toNat p h n) := by
  induction n with
  | zero => rfl
  | succ n ih =>
    rw [rollSteps_add, ih (by omega) fun k hk => hr k (by omega)]
    obtain ⟨h1, h2⟩ := hr n (by omega)
    have e1 : readBuf s (p + n) = .next (byteAt (p + n)) := readBuf_eq_next.2 ⟨by omega, h1⟩
    have e2 : readBuf s (p + n + s.win.toNat) = .next (byteAt (p + n + s.win.toNat)) :=
      readBuf_eq_next.2 ⟨by omega, h2⟩
    simp only [andThen_next, rollSteps, rollStep, e1, e2, rolledHash]
    rfl

/-! ### The arms of exec -/

@[simp] theorem exec_create (l : U32) (w : Word) (s : State) : exec (.create l w) s = execCreate l w s := rfl

@[simp] theorem exec_roll (step : Word) (s : State) : exec (.roll step) s = execRoll step s := rfl

@[simp] theorem exec_bulkroll (stride : Word) (s : State) : exec (.bulkroll stride) s = execBulkroll stride s := rfl

@[simp] theorem exec_reset (s : State) : exec (.reset) s = execReset s := rfl

@[simp] theorem exec_position (s : State) : exec (.position) s = execPosition s := rfl

@[simp] theorem exec_sum64 (s : State) : exec (.sum64) s = execSum64 s := rfl

@[simp] theorem exec_oneshot (start : Word) (n : U32) (s : State) : exec (.oneshot start n) s = execOneshot start n s := rfl

@[simp] theorem exec_lookup (b : Byte) (s : State) : exec (.lookup b) s = execLookup b s := rfl

/-! ### What each meaning can answer -/

/-- CREATE answers OUT_OF_RANGE, WINDOW_TOO_LONG, or the new instance with the hash of its first window. -/
theorem execCreate_eq_next {l : U32} {w : Word} {s t : State} (h : execCreate l w s = .next t) :
    (createOutOfRange s l = true ∧ t = raise .outOfRange s) ∨
      (createOutOfRange s l = false ∧ windowTooLong l w = true ∧ t = raise .windowTooLong s) ∨
      (createOutOfRange s l = false ∧ windowTooLong l w = false ∧
        ∃ bs, readRange s 0 w.toNat = .next bs ∧
          t = respond .ok (oneShotHash s.rom bs)
            (setInstance l (windowOperand w) (oneShotHash s.rom bs) s)) := by
  unfold execCreate at h
  split at h
  · cases h; exact .inl ⟨‹_›, rfl⟩
  · split at h
    · cases h; exact .inr (.inl ⟨by simpa using ‹¬createOutOfRange s l = true›, ‹_›, rfl⟩)
    · simp only [hashRange, andThen_eq_next, Host.Outcome.next.injEq] at h
      obtain ⟨_, ⟨bs, hbs, rfl⟩, rfl⟩ := h
      exact .inr (.inr ⟨by simpa using ‹¬createOutOfRange s l = true›,
        by simpa using ‹¬windowTooLong l w = true›, bs, hbs, rfl⟩)

/-- ROLL answers NO_INSTANCE, ILLEGAL_ROLL, or the cursor after the whole advance. -/
theorem execRoll_eq_next {step : Word} {s t : State} (h : execRoll step s = .next t) :
    (s.instValid = false ∧ t = raise .noInstance s) ∨
      (s.instValid = true ∧ rollPastEnd s step = true ∧ t = raise .illegalRoll s) ∨
      (s.instValid = true ∧ rollPastEnd s step = false ∧
        ∃ c, rollSteps s step.toNat (s.pos.toNat, s.hash) = .next c ∧
          t = respond .ok c.2 (setCursor (BitVec.ofNat 32 c.1) c.2 s)) := by
  unfold execRoll at h
  split at h
  · cases h; exact .inl ⟨‹_›, rfl⟩
  · rename_i hi
    split at h
    · cases h; exact .inr (.inl ⟨by simpa using hi, ‹_›, rfl⟩)
    · rename_i hr
      simp only [andThen_eq_next, Host.Outcome.next.injEq] at h
      obtain ⟨c, hc, rfl⟩ := h
      exact .inr (.inr ⟨by simpa using hi, by simpa using hr, c, hc, rfl⟩)

/-- RESET answers NO_INSTANCE, or the cursor at 0 with the hash of the first window. -/
theorem execReset_eq_next {s t : State} (h : execReset s = .next t) :
    (s.instValid = false ∧ t = raise .noInstance s) ∨
      (s.instValid = true ∧ ∃ bs, readRange s 0 s.win.toNat = .next bs ∧
        t = respond .ok (oneShotHash s.rom bs) (setCursor 0 (oneShotHash s.rom bs) s)) := by
  unfold execReset at h
  split at h
  · cases h; exact .inl ⟨‹_›, rfl⟩
  · rename_i hi
    simp only [hashRange, andThen_eq_next, Host.Outcome.next.injEq] at h
    obtain ⟨_, ⟨bs, hbs, rfl⟩, rfl⟩ := h
    exact .inr ⟨by simpa using hi, bs, hbs, rfl⟩

/-- ONESHOT answers OUT_OF_RANGE, or the hash of the range. -/
theorem execOneshot_eq_next {start : Word} {n : U32} {s t : State}
    (h : execOneshot start n s = .next t) :
    (oneshotOutOfRange s start n = true ∧ t = raise .outOfRange s) ∨
      (oneshotOutOfRange s start n = false ∧ ∃ bs, readRange s start.toNat n.toNat = .next bs ∧
        t = respond .ok (oneShotHash s.rom bs) s) := by
  unfold execOneshot at h
  split at h
  · cases h; exact .inl ⟨‹_›, rfl⟩
  · rename_i hr
    simp only [hashRange, andThen_eq_next, Host.Outcome.next.injEq] at h
    obtain ⟨_, ⟨bs, hbs, rfl⟩, rfl⟩ := h
    exact .inr ⟨by simpa using hr, bs, hbs, rfl⟩

/-- BULKROLL answers NO_INSTANCE, ILLEGAL_STRIDE, or streams the words of its loop. -/
theorem execBulkroll_eq_next {stride : Word} {s t : State} (h : execBulkroll stride s = .next t) :
    (s.instValid = false ∧ t = raise .noInstance s) ∨
      (s.instValid = true ∧ stride = 0#64 ∧ t = raise .illegalStride s) ∨
      (s.instValid = true ∧ stride ≠ 0#64 ∧
        ∃ ws, bulkWords s stride.toNat (s.len.toNat - s.pos.toNat) (s.pos.toNat, s.hash) = .next ws ∧
          t = streamOut ws (BitVec.ofNat 64 ws.length) s) := by
  unfold execBulkroll at h
  split at h
  · cases h; exact .inl ⟨‹_›, rfl⟩
  · rename_i hi
    split at h
    · cases h; exact .inr (.inl ⟨by simpa using hi, ‹_›, rfl⟩)
    · rename_i hs
      simp only [andThen_eq_next, Host.Outcome.next.injEq] at h
      obtain ⟨ws, hws, rfl⟩ := h
      exact .inr (.inr ⟨by simpa using hi, hs, ws, hws, rfl⟩)

/-- POSITION answers NO_INSTANCE or the position. -/
theorem execPosition_eq {s : State} :
    execPosition s =
      .next (if s.instValid = false then raise .noInstance s else respond .ok (zext64 s.pos) s) := by
  unfold execPosition; split <;> rfl

/-- SUM64 answers NO_INSTANCE or the hash. -/
theorem execSum64_eq {s : State} :
    execSum64 s =
      .next (if s.instValid = false then raise .noInstance s else respond .ok s.hash s) := by
  unfold execSum64; split <;> rfl

/-- The host write port ignores, refuses, or writes the one byte. -/
theorem hostWrite_eq_next {i : U32} {v : Byte} {s t : State} (h : hostWrite i v s = .next t) :
    (s.bufCap.toNat ≤ i.toNat ∧ t = s) ∨
      (i.toNat < s.bufCap.toNat ∧ (s.instValid = true → s.len.toNat ≤ i.toNat) ∧
        t = { s with buf := s.buf.write i.toNat v }) := by
  unfold hostWrite at h
  split at h
  · cases h; exact .inl ⟨‹_›, rfl⟩
  · split at h
    · cases h
    · rename_i hc hl
      cases h
      exact .inr ⟨by omega, fun hi => by simp only [hi, true_and, not_lt] at hl; exact hl, rfl⟩

end Sys2Proof.Machine
end

