-- ==== Sys2Proof/Tests/Slice0.lean ====
section
/-! SUPPORT. Tests against the vectors of 95_test_vectors.md (the numbers V-... and S... are its own) and
against words written out from 30_encoding.md R61 and R63; then, for each obligation with hypotheses, a
state and operands that meet them all together, one for each clause at a boundary of its range. -/
open Sys2Proof Sys2Proof.Machine

namespace Sys2Proof.Tests

/-! One theorem at a time: many small kernel evaluations in parallel would hold a thread each. -/
set_option Elab.async false

/-- `T_test` of 95_test_vectors.md 1.1. -/
def tableTest : Vector Word 256 :=
  ⟨⟨(List.range 256).map fun b => BitVec.ofNat 64 ((b + 1) * 0x9E3779B97F4A7C15)⟩, by simp⟩

/-- `T_id` of 95_test_vectors.md 1.1. -/
def tableId : Vector Word 256 :=
  ⟨⟨(List.range 256).map fun b => BitVec.ofNat 64 b⟩, by simp⟩

/-- A BUF that holds the given bytes from index 0 on. -/
def bufOf (bytes : List Byte) : Memory :=
  bytes.zipIdx.map fun c => (c.2, c.1)

/-- "abcdefghijk". -/
def elevenBytes : List Byte :=
  [0x61, 0x62, 0x63, 0x64, 0x65, 0x66, 0x67, 0x68, 0x69, 0x6A, 0x6B]

/-- The standard configuration (95_test_vectors.md 1.2), no instance. -/
def std : State :=
  { State.reset with
    bufCap := 16, rom := tableTest, outDepth := 16, buf := bufOf (elevenBytes ++ [0, 0, 0, 0, 0]) }

/-- The standard configuration before the host wrote BUF. -/
def unloaded : State := { std with buf := [] }

/-- After `CREATE 11, 4`, the response taken (V-C1). -/
def inst : State :=
  { std with instValid := true, len := 11, win := 4, pos := 0, hash := 0xC4809C217979F408 }

/-- After `CREATE 11, 4` and `ROLL 5` (V-L5). -/
def inst5 : State := { inst with pos := 5, hash := 0x13D3BC9BB1786835 }

/-- After `CREATE 11, 4` and `ROLL 7`: the last window (V-L2). -/
def inst7 : State := { inst with pos := 7, hash := 0xD0DE68C2A4154777 }

/-- After `CREATE 3, 0` (V-B13). -/
def instEmptyWindow : State := { inst with len := 3, win := 0, hash := 0 }

/-- An instance whose first window the host wrote, but not the byte at index 4. -/
def instHole : State := { inst with buf := bufOf [0x61, 0x62, 0x63, 0x64] }

/-- A BULKROLL that waits on a full OUT of two words, two more to come, the host about to take them. -/
def waiting : State :=
  { inst with
    outDepth := 2, out := [1, 2], bulk := some { pending := [3, 4], count := 4 }
    host := [.takeOut, .takeOut, .takeResponse] }

/-- The block of V-W3 with an instance of window size `w`, its hash given. -/
def wide (w : U32) (h : Word) : State :=
  { std with
    bufCap := 70, buf := bufOf ((List.range 70).map fun i => BitVec.ofNat 8 (i * 7 + 3))
    instValid := true, len := 70, win := w, pos := 0, hash := h }

/-- The next state, where there is one. -/
def after (r : Host.Outcome State Fault Refusal) : Option State :=
  match r with
  | .next t => some t
  | .fault _ => none
  | .refused _ => none

/-- The response after a step. -/
def answer (r : Host.Outcome State Fault Refusal) : Option (Byte × Word) :=
  (after r).bind readResponse

/-- The reason of a refusal. -/
def refusal (r : Host.Outcome State Fault Refusal) : Option Refusal :=
  match r with
  | .next _ => none
  | .fault _ => none
  | .refused e => some e

/-- The reason of a fault. -/
def faultOf (r : Host.Outcome State Fault Refusal) : Option Fault :=
  match r with
  | .next _ => none
  | .fault f => some f
  | .refused _ => none

/-- `POS` and `HASH` after a step. -/
def cursor (r : Host.Outcome State Fault Refusal) : Option (U32 × Word) :=
  (after r).map fun t => (t.pos, t.hash)

theorem next_of_after {r : Host.Outcome State Fault Refusal} (h : (after r).isSome = true) :
    ∃ t, r = .next t := by
  cases r with
  | next t => exact ⟨t, rfl⟩
  | fault f => cases h
  | refused e => cases h

/-! ### WellFormed (30_encoding.md R64) -/

/-- One ill-formed command for each check, beside the well-formed one it departs from. -/
theorem test_wellFormed_refuses :
    (⟨0x00, 0, 0, 0⟩ : Cmd).wellFormed = false ∧
    (⟨0x09, 0, 0, 0⟩ : Cmd).wellFormed = false ∧
    (⟨0xFF, 0, 0, 0⟩ : Cmd).wellFormed = false ∧
    (⟨0x01, 1, 0, 0⟩ : Cmd).wellFormed = false ∧ (⟨0x01, 0, 0xFFFFFFFF, 1⟩ : Cmd).wellFormed = true ∧
    (⟨0x04, 0, 0, 1⟩ : Cmd).wellFormed = false ∧ (⟨0x04, 0, 0, 0⟩ : Cmd).wellFormed = true ∧
    (⟨0x02, 0, 1, 5⟩ : Cmd).wellFormed = false ∧ (⟨0x02, 0, 0, 5⟩ : Cmd).wellFormed = true ∧
    (⟨0x08, 0, 0x100, 0⟩ : Cmd).wellFormed = false ∧ (⟨0x08, 0, 0xFF, 0⟩ : Cmd).wellFormed = true := by
  decide +kernel

/-! ### Decoding: words written out from R61 and R63, grouped A_B_RSV_OPC -/

theorem test_decode_two_operands :
    decode 0x0123456789ABCDEF_89ABCDEF_000000_01 = .ok (.create 0x89ABCDEF 0x0123456789ABCDEF) ∧
    decode 0x0123456789ABCDEF_89ABCDEF_000000_07 = .ok (.oneshot 0x0123456789ABCDEF 0x89ABCDEF) := by
  decide +kernel

theorem test_decode_one_operand :
    decode 0x8000000000000001_00000000_000000_02 = .ok (.roll 0x8000000000000001) ∧
    decode 0x8000000000000001_00000000_000000_03 = .ok (.bulkroll 0x8000000000000001) ∧
    decode 0x0000000000000000_000000A5_000000_08 = .ok (.lookup 0xA5) := by
  decide +kernel

theorem test_decode_no_operand :
    decode 0x0000000000000000_00000000_000000_04 = .ok .reset ∧
    decode 0x0000000000000000_00000000_000000_05 = .ok .position ∧
    decode 0x0000000000000000_00000000_000000_06 = .ok .sum64 := by
  decide +kernel

/-- V-E1 to V-E4, V-T4, V-T5, V-L7, V-S9, V-S10, V-B11, V-C12. -/
theorem test_decode_illegal :
    decode 0x0000000000000000_00000000_000000_00 = .error .reservedOpcode ∧
    decode 0x0000000000000000_00000000_000000_09 = .error .reservedOpcode ∧
    decode 0x0000000000000000_00000000_000000_FF = .error .reservedOpcode ∧
    decode 0x0000000000000000_00000000_000100_06 = .error .reservedField ∧
    decode 0x0000000000000004_0000000B_800000_01 = .error .reservedField ∧
    decode 0x0000000000000000_00000100_000000_08 = .error .lookupIndex ∧
    decode 0x0000000000000001_00000061_000000_08 = .error .operandNotZero ∧
    decode 0x0000000000000001_00000001_000000_02 = .error .operandNotZero ∧
    decode 0x0000000000000001_00000000_000000_04 = .error .operandNotZero ∧
    decode 0x0000000000000000_00000001_000000_05 = .error .operandNotZero ∧
    decode 0x0000000000000001_00000002_000000_03 = .error .operandNotZero := by
  decide +kernel

/-- The encoder writes V-C1's, V-L6's and V-O26's words. -/
theorem test_encode :
    encode (.create 11 4) = 0x0000000000000004_0000000B_000000_01 ∧
    encode (.roll 0xFFFFFFFFFFFFFFFF) = 0xFFFFFFFFFFFFFFFF_00000000_000000_02 ∧
    encode (.oneshot 12 5) = 0x000000000000000C_00000005_000000_07 ∧
    decodeTableWord 128 0x00000000000000000000006100000008 = some (.lookup 0x61) := by
  decide +kernel

/-! ### Functions -/

/-- V-R1, V-R4, V-R5, V-R6. -/
theorem test_rotl :
    rotl 0x8000000000000001 1 = 0x0000000000000003 ∧
    rotl 0x0123456789ABCDEF 64 = 0x0123456789ABCDEF ∧
    rotl 0x0123456789ABCDEF 68 = 0x123456789ABCDEF0 ∧
    rotl 0x0000000000000001 63 = 0x8000000000000000 := by
  decide +kernel

/-- V-O3, V-O11, V-O12, V-O13, and V-O9 under T_id. -/
theorem test_oneShotHash :
    oneShotHash tableTest [0x61, 0x62] = 0x0D0D20B94CCAFC0A ∧
    oneShotHash tableTest (List.replicate 64 0x61) = 0xFFFFFFFFFFFFFFFF ∧
    oneShotHash tableTest (List.replicate 65 0x61) = 0x6EC366FD457C7FF5 ∧
    oneShotHash tableTest (List.replicate 128 0x61) = 0 ∧
    oneShotHash tableId elevenBytes = 0x100AB := by
  decide +kernel

/-! ### Commands, one step each -/

/-- V-C1, V-C5, V-C8. -/
theorem test_create :
    (after (exec (.create 11 4) std)).map (fun t => (t.instValid, t.len, t.win, t.pos, t.hash)) =
      some (true, 11, 4, 0, 0xC4809C217979F408) ∧
    answer (exec (.create 0 0) std) = some (0x00, 0) ∧
    answer (exec (.create 16 16) std) = some (0x00, 0x5CB84FBB5F091953) := by
  decide +kernel

/-- V-C6, V-C9, V-C10, V-C11; the instance of V-C13 is kept. -/
theorem test_create_fails :
    answer (exec (.create 11 12) std) = some (0x01, 0) ∧
    answer (exec (.create 17 4) std) = some (0x07, 0) ∧
    answer (exec (.create 17 20) std) = some (0x07, 0) ∧
    answer (exec (.create 11 0x100000000) std) = some (0x01, 0) ∧
    (after (exec (.create 3 4) inst5)).map (fun t => (t.len, t.win, t.pos, t.hash)) =
      some (11, 4, 5, 0x13D3BC9BB1786835) := by
  decide +kernel

/-- V-L1, V-L2, V-L3, V-L6, V-L8. -/
theorem test_roll :
    cursor (exec (.roll 1) inst) = some (1, 0x90D2D781ED6698E6) ∧
    answer (exec (.roll 7) inst) = some (0x00, 0xD0DE68C2A4154777) ∧
    answer (exec (.roll 8) inst) = some (0x02, 0) ∧
    answer (exec (.roll 0xFFFFFFFFFFFFFFFF) inst) = some (0x02, 0) ∧
    answer (exec (.roll 1) std) = some (0x05, 0) := by
  decide +kernel

/-- V-W3: windows of 63, 64 and 65 bytes. -/
theorem test_roll_wide :
    cursor (exec (.roll 7) (wide 63 0xC1E40530C6B49787)) = some (7, 0x0C90F3FE85657736) ∧
    cursor (exec (.roll 6) (wide 64 0x4D3CD7937494B48E)) = some (6, 0x3A6B1C54EAD452D5) ∧
    cursor (exec (.roll 5) (wide 65 0xB8009D239C2E6908)) = some (5, 0x201897168E8CB5E6) := by
  decide +kernel

/-- V-B3, V-B6, V-B7, V-B9, V-B10. -/
theorem test_bulkroll :
    (after (exec (.bulkroll 3) inst)).map (fun t => (t.out, t.rspStatus, t.rspResult, t.pos)) =
      some ([0xC4809C217979F408, 0x615B4EC4C60FD35C, 0x8397039C39AFCB97], 0x00, 3, 0) ∧
    (after (exec (.bulkroll 2) inst5)).map State.out = some [0x13D3BC9BB1786835, 0xD0DE68C2A4154777] ∧
    answer (exec (.bulkroll 0xFFFFFFFFFFFFFFFF) inst) = some (0x00, 1) ∧
    answer (exec (.bulkroll 0) inst7) = some (0x03, 0) ∧
    answer (exec (.bulkroll 0) std) = some (0x05, 0) := by
  decide +kernel

/-- V-B3's words on an OUT of depth 2 that holds an older word (43_bulk_roll.md R135, 10_state.md R27): one
word enters, two wait, and there is no response. -/
theorem test_bulkroll_waits :
    (after (exec (.bulkroll 3) { inst with outDepth := 2, out := [7] })).map
        (fun t => (t.out, t.bulk, t.rspPhase)) =
      some ([7, 0xC4809C217979F408],
        some ⟨[0x615B4EC4C60FD35C, 0x8397039C39AFCB97], 3⟩, .empty) := by
  decide +kernel

/-- V-S1, V-S3. -/
theorem test_reset :
    cursor (exec .reset inst5) = some (0, 0xC4809C217979F408) ∧
    answer (exec .reset inst5) = some (0x00, 0xC4809C217979F408) ∧
    answer (exec .reset std) = some (0x05, 0) := by
  decide +kernel

/-- V-S5, V-S6. -/
theorem test_position :
    answer (exec .position inst7) = some (0x00, 7) ∧ answer (exec .position std) = some (0x05, 0) := by
  decide +kernel

/-- V-S7, V-S8. -/
theorem test_sum64 :
    answer (exec .sum64 inst) = some (0x00, 0xC4809C217979F408) ∧
    answer (exec .sum64 std) = some (0x05, 0) := by
  decide +kernel

/-- V-O21, V-O24, V-O25, V-O26, V-O27, V-O28. -/
theorem test_oneshot :
    answer (exec (.oneshot 7 4) std) = some (0x00, 0xD0DE68C2A4154777) ∧
    answer (exec (.oneshot 16 0) std) = some (0x00, 0) ∧
    answer (exec (.oneshot 17 0) std) = some (0x07, 0) ∧
    answer (exec (.oneshot 12 5) std) = some (0x07, 0) ∧
    answer (exec (.oneshot 11 5) std) = some (0x00, 0xC8483A727203559D) ∧
    answer (exec (.oneshot 0xFFFFFFFFFFFFFFFF 1) std) = some (0x07, 0) := by
  decide +kernel

/-- V-T1, V-T2, V-T3. -/
theorem test_lookup :
    answer (exec (.lookup 0x61) std) = some (0x00, 0x913C9902BA83800A) ∧
    answer (exec (.lookup 0x00) inst) = some (0x00, 0x9E3779B97F4A7C15) ∧
    answer (exec (.lookup 0xFF) std) = some (0x00, 0x3779B97F4A7C1500) := by
  decide +kernel

/-- V-E4, V-E5, V-E6: the priority of R170, from the words. -/
theorem test_priority :
    answer (runCommand 0x0000000000000000_00000000_000100_06 std) = some (0x06, 0) ∧
    answer (runCommand 0x0000000000000000_00000000_000000_03 std) = some (0x05, 0) ∧
    answer (runCommand 0x0000000000000000_00000000_000000_03 inst) = some (0x03, 0) ∧
    answer (runCommand 0x0000000000000014_00000011_000000_01 inst) = some (0x07, 0) := by
  decide +kernel

/-- 70_reset_and_hazards.md R183: an unwritten byte is refused by name; 20_memory.md R46: so is a host write
into the live buffer, while one behind it goes through and one outside BUF is ignored (R45). -/
theorem test_refusals :
    refusal (exec (.create 11 4) unloaded) = some (.unwrittenByte 0) ∧
    refusal (exec (.roll 1) instHole) = some (.unwrittenByte 4) ∧
    refusal (applyMove (.writeByte 10 0) inst) = some (.liveBufferWrite 10) ∧
    (after (applyMove (.writeByte 11 0x6C) inst)).bind (fun t => t.buf.read 11) = some 0x6C ∧
    (after (applyMove (.writeByte 16 0) inst)).map State.buf = some inst.buf := by
  decide +kernel

/-- An index outside BUF, which only a state outside the cursor invariant reads, faults (20_memory.md R51). -/
theorem test_fault :
    faultOf (exec .reset { inst with win := 17, len := 17 }) = some (.bufIndexOutOfRange 16) := by
  decide +kernel

/-! ### One step, from reset and with the host's moves -/

/-- The first step after reset runs the placed word, whatever the parameters: the cursor commands report
NO_INSTANCE, the empty ranges are legal, an illegal word is answered. -/
theorem test_step_from_reset :
    answer (step (State.reset.withFetchWord 128 0x02)) = some (0x05, 0) ∧
    answer (step (State.reset.withFetchWord 128 0x06)) = some (0x05, 0) ∧
    answer (step (State.reset.withFetchWord 128 0x01)) = some (0x00, 0) ∧
    answer (step (State.reset.withFetchWord 128 0x07)) = some (0x00, 0) ∧
    answer (step (State.reset.withFetchWord 128 0x00)) = some (0x06, 0) := by
  decide +kernel

/-- 30_encoding.md R72 and 70_reset_and_hazards.md R187: a command waits for the response before it to be
taken; the port that takes the response goes on. -/
theorem test_command_waits :
    (after (step { inst with
        rspPhase := .held, host := [.command (encode .sum64), .takeResponse] })).map
        (fun t => (t.rspPhase, t.host)) = some (.taken, [.command (encode .sum64)]) := by
  decide +kernel

/-- 43_bulk_roll.md R135: each word the host takes lets the next one in; after the last one the response
comes. -/
theorem test_takeOut :
    (after (step waiting)).map (fun t => (t.out, t.bulk, readResponse t)) =
      some ([2, 3], some ⟨[4], 4⟩, none) ∧
    (after (applyMove .takeOut { waiting with out := [2, 3], bulk := some ⟨[4], 4⟩ })).map
        (fun t => (t.out, t.bulk, readResponse t)) = some ([3, 4], none, some (0x00, 4)) := by
  decide +kernel

/-- V-X1: the block reset in the middle of a BULKROLL. -/
theorem test_blockReset :
    (after (applyMove .blockReset waiting)).map (fun t => (t.instValid, t.out)) = some (false, []) ∧
    (after (applyMove .blockReset waiting)).map (fun t => (t.bulk, readResponse t)) =
      some (none, none) ∧
    answer (exec .sum64 (blockReset waiting)) = some (0x05, 0) ∧
    answer (exec (.lookup 0x61) (blockReset waiting)) = some (0x00, 0x913C9902BA83800A) := by
  decide +kernel

/-! ### The host's side and the assembler -/

/-- V-A2, V-A3 (its state after `ROLL 1`), V-A6. -/
theorem test_adapter :
    adapterSum [0x78, 0x79] inst = some [0x78, 0x79, 0xC4, 0x80, 0x9C, 0x21, 0x79, 0x79, 0xF4, 0x08] ∧
    adapterSum [] { inst with pos := 1, hash := 0x90D2D781ED6698E6 } =
      some [0x90, 0xD2, 0xD7, 0x81, 0xED, 0x66, 0x98, 0xE6] ∧
    adapterWrite [0x7A] = ⟨.notWritable, 0, []⟩ := by
  decide +kernel

/-- R152: a buffer longer than BUF_CAP gives OUT_OF_RANGE, here from the block. -/
theorem test_create_too_long_for_BUF :
    (match adapterCreate (List.replicate 17 0) 4 with
      | .moves ms => ms.getLast?
      | .fails _ => none) = some (.command 0x0000000000000004_00000011_000000_01) ∧
    answer (runCommand 0x0000000000000004_00000011_000000_01 std) = some (0x07, 0) := by
  decide +kernel

/-- Lines and words of 95_test_vectors.md P1, P2 and V-O26, and the pseudo-instructions of R75. -/
theorem test_assemble :
    assembleText "CREATE 11, 4".toList = some [0x0000000000000004_0000000B_000000_01] ∧
    assembleText "ROLL 7               ; 1 + 7 + 4 = 12 > 11".toList =
      some [0x0000000000000007_00000000_000000_02] ∧
    assembleText "ONESHOT 0xC, 5".toList = some [0x000000000000000C_00000005_000000_07] ∧
    assembleText "LOOKUP 0x61".toList = some [0x0000000000000000_00000061_000000_08] ∧
    assembleText "SEEK 5".toList =
      some [0x0000000000000000_00000000_000000_04, 0x0000000000000005_00000000_000000_02] ∧
    assembleText "HASH 3".toList = some [0x0000000000000000_00000003_000000_07] ∧
    assembleText "STEP".toList = some [0x0000000000000001_00000000_000000_02] := by
  decide +kernel

/-- R74: an operand that does not fit is refused; so is a mnemonic R74 does not have. -/
theorem test_assemble_refuses :
    assembleText "LOOKUP 256".toList = none ∧
    assembleText "CREATE 4294967296, 4".toList = none ∧
    assembleText "ROLL 0x10000000000000000".toList = none ∧
    assembleText "JUMP 4".toList = none := by
  decide +kernel

/-! ### Witnesses: the hypotheses of each obligation can be met -/

/-- The byte of the standard BUF at an index. -/
def byteAt (i : Nat) : Byte := (std.buf.read i).getD 0

/-- The word of `SUM64`, presented on a free channel. -/
def presented : State := { inst with host := [.command 0x00000000000000000000000000000006] }

/-- The host presents `SUM64` behind a taking of OUT, which is empty. -/
def presentedBehind : State :=
  { inst with host := [.takeOut, .command 0x00000000000000000000000000000006] }

/-- `SUM64`'s response waits for the host, which writes a byte behind the live buffer first. -/
def answeredSum : State :=
  { inst with
    rspResult := 0xC4809C217979F408, rspPhase := .held
    host := [.command 0x00000000000000000000000000000006, .writeByte 11 0x6C, .takeResponse] }

theorem witness_EncodeOfDecode :
    decode 0x00000000000000070000000400000007 = .ok (.oneshot 7 4) := by
  decide +kernel

/-- Each condition of R64 at its boundary; the error clause for each reason. -/
theorem witness_IllegalWords :
    ((0x0 : CmdWord).extractLsb' 0 8).toNat = 0x00 ∧
    0x09 ≤ ((0x9 : CmdWord).extractLsb' 0 8).toNat ∧
    (0x80000001 : CmdWord).extractLsb' 8 24 ≠ 0#24 ∧
    (0x10000000000000004 : CmdWord).extractLsb' 64 64 ≠ 0#64 ∧
    (0x8000000000000002 : CmdWord).extractLsb' 32 32 ≠ 0#32 ∧
    (0x10000000008 : CmdWord).extractLsb' 40 24 ≠ 0#24 ∧
    decode 0x0 = .error .reservedOpcode ∧ decode 0x9 = .error .reservedOpcode ∧
    decode 0x80000001 = .error .reservedField ∧
    decode 0x10000000000000004 = .error .operandNotZero ∧
    decode 0x8000000000000002 = .error .operandNotZero ∧
    decode 0x10000000008 = .error .lookupIndex := by
  decide +kernel

theorem witness_StepRunsTheDecodedCommand :
    decode 0x6 = .ok .sum64 ∧
    nextMove presentedBehind presentedBehind.host = some (.command 0x6, [.takeOut]) ∧
    acceptsCommand presented = true ∧ presented.host = [.command 0x6] := by
  decide +kernel

theorem witness_IllegalWordAnswersIllegalCommand :
    decode 0x106 = .error .reservedField ∧
    acceptsCommand { presented with host := [.command 0x106] } = true := by
  decide +kernel

theorem witness_CommandsRunInIssueOrder :
    nextMove presentedBehind presentedBehind.host = some (.command 0x6, [.takeOut]) ∧
    commandWords presentedBehind.host = [0x6] := by
  decide +kernel

/-- A command that answers at once, an illegal word, and a BULKROLL that waits. -/
theorem witness_EveryCommandResponds :
    acceptsCommand inst = true ∧ (after (runCommand 0x6 inst)).isSome = true ∧
    (after (runCommand 0x0 inst)).map State.rspStatus = some 0x06 ∧
    acceptsCommand { inst with outDepth := 2 } = true ∧
    ((after (runCommand 0x10000000000000003 { inst with outDepth := 2 })).map State.bulk).isSome = true ∧
    (after (runCommand 0x10000000000000003 { inst with outDepth := 2 })).map State.bulk ≠ some none := by
  decide +kernel

theorem witness_LookupRule :
    (0x10000000008 : CmdWord).extractLsb' 0 8 = 0x08#8 ∧
    (0x10000000008 : CmdWord).extractLsb' 40 24 ≠ 0#24 ∧
    (0x10000000000000008 : CmdWord).extractLsb' 0 8 = 0x08#8 ∧
    (0x10000000000000008 : CmdWord).extractLsb' 64 64 ≠ 0#64 := by
  decide +kernel

/-- The range ends at BUF_CAP, is empty at BUF_CAP, and passes it by one. -/
theorem witness_OneshotRule :
    (12#64).toNat + (5#32).toNat > std.bufCap.toNat ∧
    (12#64).toNat + (4#32).toNat ≤ std.bufCap.toNat ∧ [0, 0, 0, (0 : Byte)].length = (4#32).toNat ∧
    (∀ k, (h : k < [0, 0, 0, (0 : Byte)].length) →
      std.buf.read ((12#64).toNat + k) = some [0, 0, 0, (0 : Byte)][k]) ∧
    (16#64).toNat + (0#32).toNat ≤ std.bufCap.toNat ∧ ([] : List Byte).length = (0#32).toNat ∧
    (0x107 : CmdWord).extractLsb' 0 8 = 0x07#8 ∧ (0x107 : CmdWord).extractLsb' 8 24 ≠ 0#24 := by
  decide +kernel

/-- L one above BUF_CAP, W one above L, and L = W = BUF_CAP. -/
theorem witness_CreateRule :
    (17#32).toNat > std.bufCap.toNat ∧
    (16#32).toNat ≤ std.bufCap.toNat ∧ (17#64).toNat > (16#32).toNat ∧
    (16#64).toNat ≤ (16#32).toNat ∧ (elevenBytes ++ [0, 0, 0, 0, 0]).length = (16#64).toNat ∧
    (∀ k, (h : k < (elevenBytes ++ [0, 0, 0, 0, 0]).length) →
      std.buf.read k = some (elevenBytes ++ [0, 0, 0, 0, 0])[k]) ∧
    (0x101 : CmdWord).extractLsb' 0 8 = 0x01#8 ∧ (0x101 : CmdWord).extractLsb' 8 24 ≠ 0#24 := by
  decide +kernel

/-- The step past the last window, and the one onto it. -/
theorem witness_RollRule :
    std.instValid = false ∧ inst.instValid = true ∧
    inst.pos.toNat + (8#64).toNat + inst.win.toNat > inst.len.toNat ∧
    inst.pos.toNat + (7#64).toNat + inst.win.toNat ≤ inst.len.toNat ∧
    inst.len.toNat ≤ inst.bufCap.toNat ∧
    (∀ k < (7#64).toNat,
      inst.buf.read (inst.pos.toNat + k) = some (byteAt (inst.pos.toNat + k)) ∧
      inst.buf.read (inst.pos.toNat + k + inst.win.toNat) =
        some (byteAt (inst.pos.toNat + k + inst.win.toNat))) ∧
    (0x100000002 : CmdWord).extractLsb' 0 8 = 0x02#8 ∧
    (0x100000002 : CmdWord).extractLsb' 32 32 ≠ 0#32 ∧
    (0x102 : CmdWord).extractLsb' 0 8 = 0x02#8 ∧ (0x102 : CmdWord).extractLsb' 8 24 ≠ 0#24 := by
  decide +kernel

theorem witness_ResetRule :
    std.instValid = false ∧ inst5.instValid = true ∧ inst5.win.toNat ≤ inst5.bufCap.toNat ∧
    [0x61, 0x62, 0x63, (0x64 : Byte)].length = inst5.win.toNat ∧
    (∀ k, (h : k < [0x61, 0x62, 0x63, (0x64 : Byte)].length) →
      inst5.buf.read k = some [0x61, 0x62, 0x63, (0x64 : Byte)][k]) ∧
    (after (exec .reset inst5)).isSome = true ∧
    (0x10000000000000004 : CmdWord).extractLsb' 0 8 = 0x04#8 ∧
    (0x10000000000000004 : CmdWord).extractLsb' 64 64 ≠ 0#64 ∧
    (0x100000004 : CmdWord).extractLsb' 32 32 ≠ 0#32 ∧ (0x104 : CmdWord).extractLsb' 8 24 ≠ 0#24 := by
  decide +kernel

theorem cursorInBounds_inst7 : CursorInBounds inst7 := fun _ => by decide +kernel

theorem hashOfWindow_inst : HashOfWindow inst :=
  fun _ => ⟨[0x61, 0x62, 0x63, 0x64], rfl, by decide +kernel⟩

theorem hashOfWindow_inst7 : HashOfWindow inst7 :=
  fun _ => ⟨[0x68, 0x69, 0x6A, 0x6B], rfl, by decide +kernel⟩

theorem witness_PositionRule :
    std.instValid = false ∧ inst7.instValid = true ∧ CursorInBounds inst7 ∧
    (0x10000000000000005 : CmdWord).extractLsb' 0 8 = 0x05#8 ∧
    (0x10000000000000005 : CmdWord).extractLsb' 64 64 ≠ 0#64 ∧
    (0x100000005 : CmdWord).extractLsb' 32 32 ≠ 0#32 ∧ (0x105 : CmdWord).extractLsb' 8 24 ≠ 0#24 :=
  ⟨rfl, rfl, cursorInBounds_inst7, by decide +kernel⟩

theorem witness_Sum64Rule :
    std.instValid = false ∧ inst7.instValid = true ∧ HashOfWindow inst7 ∧
    (0x10000000000000006 : CmdWord).extractLsb' 0 8 = 0x06#8 ∧
    (0x10000000000000006 : CmdWord).extractLsb' 64 64 ≠ 0#64 ∧
    (0x100000006 : CmdWord).extractLsb' 32 32 ≠ 0#32 ∧ (0x106 : CmdWord).extractLsb' 8 24 ≠ 0#24 :=
  ⟨rfl, rfl, hashOfWindow_inst7, by decide +kernel⟩

/-- Stride 7 reads up to the last byte of the buffer; its two words fit OUT, or with one place do not. -/
theorem witness_BulkrollRule :
    std.instValid = false ∧ inst.instValid = true ∧ (7#64) ≠ 0#64 ∧ inst.len.toNat ≤ inst.bufCap.toNat ∧
    (∀ k < (inst.len.toNat - inst.win.toNat - inst.pos.toNat) / (7#64).toNat * (7#64).toNat,
      inst.buf.read (inst.pos.toNat + k) = some (byteAt (inst.pos.toNat + k)) ∧
      inst.buf.read (inst.pos.toNat + k + inst.win.toNat) =
        some (byteAt (inst.pos.toNat + k + inst.win.toNat))) ∧
    inst.out.length + 2 ≤ inst.outDepth ∧ ¬ inst.out.length + 2 ≤ ({ inst with outDepth := 1 } : State).outDepth ∧
    (0x200000003 : CmdWord).extractLsb' 0 8 = 0x03#8 ∧
    (0x200000003 : CmdWord).extractLsb' 32 32 ≠ 0#32 ∧
    (0x103 : CmdWord).extractLsb' 0 8 = 0x03#8 ∧ (0x103 : CmdWord).extractLsb' 8 24 ≠ 0#24 := by
  decide +kernel

/-- BUF with bytes 0 to 3 written, read up to byte 4: by ONESHOT, CREATE and RESET. -/
theorem witness_UnwrittenByteIsRefused_ranges :
    (0#64).toNat + (5#32).toNat ≤ instHole.bufCap.toNat ∧ 4 < (5#32).toNat ∧
    (∀ j < 4, instHole.buf.read ((0#64).toNat + j) ≠ none) ∧
    instHole.buf.read ((0#64).toNat + 4) = none ∧
    (11#32).toNat ≤ instHole.bufCap.toNat ∧ (5#64).toNat ≤ (11#32).toNat ∧ 4 < (5#64).toNat ∧
    (∀ j < 4, instHole.buf.read j ≠ none) ∧ instHole.buf.read 4 = none ∧
    ({ instHole with win := 5 } : State).instValid = true ∧
    ({ instHole with win := 5 } : State).win.toNat ≤ instHole.bufCap.toNat ∧
    4 < ({ instHole with win := 5 } : State).win.toNat := by
  decide +kernel

/-- The same BUF: the first update reads the entering byte 4; with the cursor at 4, the leaving one. -/
theorem witness_UnwrittenByteIsRefused_updates :
    instHole.instValid = true ∧
    instHole.pos.toNat + (1#64).toNat + instHole.win.toNat ≤ instHole.len.toNat ∧
    instHole.len.toNat ≤ instHole.bufCap.toNat ∧ 0 < (1#64).toNat ∧
    WindowReadsUpTo instHole 0 ∧ FirstUnwrittenOf instHole 0 4 ∧
    FirstUnwrittenOf { instHole with pos := 4 } 0 4 ∧
    ({ instHole with pos := 4 } : State).pos.toNat + (1#64).toNat + instHole.win.toNat ≤ instHole.len.toNat ∧
    (7#64) ≠ 0#64 ∧
    0 < (instHole.len.toNat - instHole.win.toNat - instHole.pos.toNat) / (7#64).toNat * (7#64).toNat :=
  ⟨rfl, by decide +kernel, by decide +kernel, by decide +kernel, fun _ h => absurd h (Nat.not_lt_zero _),
    ⟨by decide +kernel, .inr (by decide +kernel)⟩, ⟨by decide +kernel, .inl (by decide +kernel)⟩,
    by decide +kernel, by decide +kernel, by decide +kernel⟩

theorem witness_FailurePriority :
    decode 0x103 = .error .reservedField ∧ std.instValid = false ∧
    (17#32).toNat > std.bufCap.toNat ∧
    (16#32).toNat ≤ std.bufCap.toNat ∧ (17#64).toNat > (16#32).toNat ∧
    inst.instValid = true ∧ inst.pos.toNat + (8#64).toNat + inst.win.toNat > inst.len.toNat ∧
    (16#64).toNat + (1#32).toNat > std.bufCap.toNat := by
  decide +kernel

theorem witness_ReadingCommandsFrame :
    (∃ t, exec .position inst7 = .next t) ∧ (∃ t, exec .sum64 std = .next t) ∧
    (∃ t, exec (.oneshot 0 16) std = .next t) ∧ ∃ t, exec (.lookup 0xFF) std = .next t :=
  ⟨⟨_, rfl⟩, ⟨_, rfl⟩, ⟨_, rfl⟩, ⟨_, rfl⟩⟩

theorem witness_CreateFrame :
    (∃ t, exec (.create 16 16) std = .next t) ∧
    ∃ t, exec (.create 3 4) inst5 = .next t ∧ t.rspStatus ≠ 0x00 :=
  ⟨⟨_, rfl⟩, ⟨_, rfl, by decide +kernel⟩⟩

theorem witness_RollAndResetFrame :
    (∃ t, exec (.roll 7) inst = .next t) ∧ (∃ t, exec .reset inst7 = .next t) ∧
    ∃ t, exec (.roll 8) inst = .next t ∧ t.rspStatus ≠ 0x00 :=
  ⟨⟨_, rfl⟩, ⟨_, rfl⟩, ⟨_, rfl, by decide +kernel⟩⟩

theorem witness_BulkrollFrame : ∃ t, exec (.bulkroll 3) { inst with outDepth := 2 } = .next t :=
  ⟨_, rfl⟩

theorem witness_FailureChangesOnlyTheResponse :
    acceptsCommand inst = true ∧
    ∃ t, runCommand 0x3 inst = .next t ∧ t.rspPhase = .held ∧ t.rspStatus ≠ 0x00 :=
  ⟨rfl, _, rfl, rfl, by decide +kernel⟩

theorem witness_BulkrollDoesNotMoveTheCursor :
    ∃ t, exec (.bulkroll 3) { inst with outDepth := 2 } = .next t ∧
      (∃ p, exec .position { inst with outDepth := 2 } = .next p) ∧ (∃ q, exec .position t = .next q) ∧
      ∃ q, exec .sum64 (Nat.repeat takeOut 2 t) = .next q :=
  ⟨_, rfl, ⟨_, rfl⟩, ⟨_, rfl⟩, ⟨_, rfl⟩⟩

theorem witness_BlockNeverWritesMemory : ∃ t, runCommand 0x10000000000000003 inst = .next t :=
  ⟨_, rfl⟩

/-- A step that answers, one that faults and one that is refused. -/
theorem witness_ParametersNeverChange :
    (∃ t, step { inst with host := [.blockReset] } = .next t) ∧
    (∃ f, step { inst with win := 17, len := 17, host := [.command 0x4] } = .fault f) ∧
    ∃ e, step { unloaded with host := [.command 0x40000000B00000001] } = .refused e :=
  ⟨⟨_, rfl⟩, ⟨_, rfl⟩, _, rfl⟩

theorem witness_InstValidIsClearedOnlyByReset :
    (∃ t, step { inst with host := [.blockReset] } = .next t ∧ inst.instValid = true ∧
      t.instValid = false) ∧
    (∃ t, exec (.create 16 16) std = .next t ∧ t.rspStatus = 0x00) ∧ std.instValid = false :=
  ⟨⟨_, rfl, rfl, rfl⟩, ⟨_, rfl, rfl⟩, rfl⟩

theorem witness_OnlyCreateWritesLenAndWin :
    ∃ t, exec (.create 16 16) inst = .next t ∧ t.len ≠ inst.len ∧ t.win ≠ inst.win :=
  ⟨_, rfl, by decide +kernel, by decide +kernel⟩

/-- A command that answers, and a BULKROLL that waits. -/
theorem witness_NoCommandReadsTheResponse :
    acceptsCommand inst = true ∧ (∃ t, exec .sum64 inst = .next t ∧ t.rspPhase = .held) ∧
    acceptsCommand { inst with outDepth := 2 } = true ∧
    ∃ t, exec (.bulkroll 3) { inst with outDepth := 2 } = .next t ∧ t.rspPhase ≠ .held :=
  ⟨rfl, ⟨_, rfl, rfl⟩, rfl, _, rfl, by decide +kernel⟩

theorem witness_OneshotAndLookupIgnoreTheCursor :
    inst7.buf = std.buf ∧ inst7.bufCap = std.bufCap ∧ inst7.rom = std.rom ∧
    (∃ t, exec (.oneshot 12 4) std = .next t) ∧ ∃ t, exec (.lookup 0xFF) std = .next t :=
  ⟨rfl, rfl, rfl, ⟨_, rfl⟩, ⟨_, rfl⟩⟩

/-- V-L9: ROLL 2 then ROLL 3. -/
theorem witness_RollsAddUp :
    ∃ t u, exec (.roll 2) inst = .next t ∧ t.rspStatus = 0x00 ∧
      exec (.roll 3) t = .next u ∧ u.rspStatus = 0x00 :=
  ⟨_, _, rfl, rfl, rfl, rfl⟩

theorem witness_ResetAfterCreateChangesNothing :
    ∃ t, exec (.create 11 4) std = .next t ∧ t.rspStatus = 0x00 :=
  ⟨_, rfl, rfl⟩

theorem std_read : ∀ i < 16, std.buf.read i = some (byteAt i) := by
  decide +kernel

/-- The advance onto the last window. -/
theorem witness_RollGivesTheHashOfTheWindow :
    inst.instValid = true ∧
    inst.pos.toNat + (7#64).toNat + inst.win.toNat ≤ inst.len.toNat ∧
    inst.len.toNat ≤ inst.bufCap.toNat ∧
    (∀ i, inst.pos.toNat ≤ i → i < inst.pos.toNat + (7#64).toNat + inst.win.toNat →
      inst.buf.read i = some (byteAt i)) ∧
    inst.hash = oneShotHash inst.rom (windowBytes byteAt inst.pos.toNat inst.win.toNat) :=
  ⟨rfl, by decide +kernel, by decide +kernel,
    fun i _ h => std_read i (Nat.lt_of_lt_of_le h (by decide +kernel)), by decide +kernel⟩

/-- The two words of stride 7, with room for them and without. -/
theorem witness_BulkrollEmitsTheWindowHashes :
    inst.instValid = true ∧ (7#64) ≠ 0#64 ∧
    inst.pos.toNat + inst.win.toNat ≤ inst.len.toNat ∧ inst.len.toNat ≤ inst.bufCap.toNat ∧
    (∀ i, inst.pos.toNat ≤ i → i < inst.len.toNat → inst.buf.read i = some (byteAt i)) ∧
    inst.hash = oneShotHash inst.rom (windowBytes byteAt inst.pos.toNat inst.win.toNat) ∧
    inst.out.length + 2 ≤ inst.outDepth ∧
    ({ inst with outDepth := 1 } : State).outDepth < inst.out.length + 2 :=
  ⟨rfl, by decide +kernel, by decide +kernel, by decide +kernel,
    fun i _ h => std_read i (Nat.lt_of_lt_of_le h (by decide +kernel)), by decide +kernel,
    by decide +kernel, by decide +kernel⟩

/-- V-B6: two words from position 5. -/
theorem witness_BulkrollAgreesWithRoll :
    inst5.instValid = true ∧ (2#64) ≠ 0#64 ∧ ∃ t, exec (.bulkroll 2) inst5 = .next t :=
  ⟨rfl, by decide +kernel, _, rfl⟩

/-- V-W1 and V-B13, and the empty window of a buffer as long as BUF. -/
theorem witness_WindowSizeZeroHashesToZero :
    (16#32).toNat ≤ std.bufCap.toNat ∧
    instEmptyWindow.instValid = true ∧ instEmptyWindow.win = 0 ∧ instEmptyWindow.hash = 0 ∧
    instEmptyWindow.pos.toNat + (3#64).toNat ≤ instEmptyWindow.len.toNat ∧
    instEmptyWindow.len.toNat ≤ instEmptyWindow.bufCap.toNat ∧
    (∀ k < (3#64).toNat, instEmptyWindow.buf.read (instEmptyWindow.pos.toNat + k) ≠ none) ∧
    (after (exec (.bulkroll 2) instEmptyWindow)).map State.out = some [0, 0] := by
  decide +kernel

theorem witness_RotationLaws : 64 % 64 = 0 ∧ 63 % 64 ≠ 0 ∧ 65 % 64 ≠ 0 := by
  decide

theorem witness_OneShotHashIsTheXorOfItsTerms :
    [1, 2, 0].Perm (List.range [0x61, 0x62, (0x63 : Byte)].length) := by
  decide

theorem witness_WindowsOf64BytesOrMore : (List.replicate 63 (0 : Byte)).length = 63 := by
  decide

/-- The last index of the live buffer, the first behind it, and the first outside BUF. -/
theorem witness_HostWritePort :
    inst.bufCap.toNat ≤ (16#32).toNat ∧
    (10#32).toNat < inst.bufCap.toNat ∧ inst.instValid = true ∧ (10#32).toNat < inst.len.toNat ∧
    (11#32).toNat < inst.bufCap.toNat ∧ inst.len.toNat ≤ (11#32).toNat ∧ std.instValid = false := by
  decide +kernel

/-- With a BULKROLL in progress, and with none. -/
theorem witness_OutIsFirstInFirstOut :
    waiting.out ≠ [] ∧ ({ inst with out := [1] } : State).out ≠ [] ∧ inst.bulk = none := by
  decide +kernel

theorem streamWellFormed_waiting : StreamWellFormed waiting :=
  ⟨by decide +kernel, fun b hb => by
    have : b = ⟨[3, 4], 4⟩ := (Option.some.inj hb).symm
    subst this
    decide +kernel⟩

/-- A host that presents a command and a byte but takes no word of OUT. -/
theorem witness_StreamWaitsForTheHost :
    StreamWellFormed { waiting with host := [.command 0x6, .writeByte 11 0] } ∧
    ({ waiting with host := [.command 0x6, .writeByte 11 0] } : State).bulk ≠ none ∧
    ∀ m ∈ ([.command 0x6, .writeByte 11 0] : List HostMove), m ≠ .takeOut ∧ m ≠ .blockReset :=
  ⟨streamWellFormed_waiting, by decide +kernel, by decide +kernel⟩

theorem witness_DrainingCompletesTheStream :
    StreamWellFormed waiting ∧ 1 ≤ waiting.outDepth ∧ waiting.bulk = some ⟨[3, 4], 4⟩ ∧
    waiting.host = List.replicate 2 .takeOut ++ [.takeResponse] :=
  ⟨streamWellFormed_waiting, by decide +kernel, rfl, rfl⟩

/-- The command in front waits; the byte behind the live buffer goes through. -/
theorem witness_ResponseIsHeldUntilTaken :
    answeredSum.rspPhase = .held ∧ answeredSum.bulk = none ∧
    nextMove answeredSum answeredSum.host =
      some (.writeByte 11 0x6C, [.command 0x6, .takeResponse]) ∧
    ∃ t, step answeredSum = .next t :=
  ⟨rfl, rfl, by decide +kernel, _, rfl⟩

/-- No response yet: the host's boot write, and a first BULKROLL that waits before and after a word is
taken. -/
theorem witness_ResponseIsHeldUntilTaken_none :
    (readResponse { unloaded with host := [.writeByte 0 0x61] } = none ∧ unloaded.bulk = none ∧
      nextMove unloaded [.writeByte 0 0x61] = some (.writeByte 0 0x61, []) ∧
      ∃ t, step { unloaded with host := [.writeByte 0 0x61] } = .next t) ∧
    readResponse waiting = none ∧ ∃ t, step waiting = .next t ∧ t.bulk ≠ none :=
  ⟨⟨rfl, rfl, by decide +kernel, _, rfl⟩, rfl, _, rfl, by decide +kernel⟩

theorem witness_BlockResetState : 15 < (blockReset waiting).bufCap.toNat := by
  decide +kernel

/-- The moves of a state that meets every invariant: `ROLL 7` onto the last window. -/
def rolling : State := { inst with host := [.command 0x00000000000000070000000000000002] }

theorem cursorInBounds_rolling : CursorInBounds rolling := fun _ => by decide +kernel

theorem witness_StepKeepsCursorInBounds :
    CursorInBounds rolling ∧ ∃ t, step rolling = .next t ∧ t.pos = 7 :=
  ⟨cursorInBounds_rolling, _, rfl, by decide +kernel⟩

theorem witness_StepKeepsHashOfWindow :
    CursorInBounds rolling ∧ HashOfWindow rolling ∧ ∃ t, step rolling = .next t ∧ t.pos = 7 :=
  ⟨cursorInBounds_rolling, hashOfWindow_inst, _, rfl, by decide +kernel⟩

/-- A host write at the last index of BUF. -/
theorem witness_StepKeepsBufferWellFormed :
    BufferWellFormed { inst with host := [.writeByte 15 1] } ∧
    ∃ t, step { inst with host := [.writeByte 15 1] } = .next t :=
  ⟨⟨by decide +kernel, by decide +kernel⟩, _, rfl⟩

theorem witness_StepKeepsStreamWellFormed :
    StreamWellFormed waiting ∧ ∃ t, step waiting = .next t :=
  ⟨streamWellFormed_waiting, _, rfl⟩

theorem witness_StepKeepsResponseLegal :
    ResponseLegal presented ∧ ∃ t, step presented = .next t :=
  ⟨⟨by decide +kernel, by decide +kernel, by decide +kernel⟩, _, rfl⟩

theorem witness_NoReadOutsideTheBuffer : CursorInBounds rolling ∧ rolling.instValid = true :=
  ⟨cursorInBounds_rolling, rfl⟩

theorem witness_DigestAppend : inst.instValid = true ∧ std.instValid = false :=
  ⟨rfl, rfl⟩

/-- `unloaded` with the moves of `create` to come. -/
def creating (buffer : List Byte) (w : Word) : State :=
  match adapterCreate buffer w with
  | .moves ms => { unloaded with host := ms ++ [.takeResponse] }
  | .fails _ => unloaded

/-- A buffer of eleven bytes with a window as long as it, and one byte longer; seventeen bytes for a BUF of
sixteen; and a buffer whose length has no operand. -/
theorem witness_LoadThenCreate :
    2 ^ 32 ≤ (List.replicate (2 ^ 32) (0 : Byte)).length ∧
    elevenBytes.length < 2 ^ 32 ∧
    (∃ moves, adapterCreate elevenBytes 11 = .moves moves ∧ (creating elevenBytes 11).instValid = false ∧
      acceptsCommand (creating elevenBytes 11) = true ∧
      (creating elevenBytes 11).host = moves ++ [.takeResponse] ∧
      elevenBytes.length ≤ (creating elevenBytes 11).bufCap.toNat ∧ (11#64).toNat ≤ elevenBytes.length ∧
      (12#64).toNat > elevenBytes.length) ∧
    ∃ moves, adapterCreate (List.replicate 17 0) 4 = .moves moves ∧
      acceptsCommand (creating (List.replicate 17 0) 4) = true ∧
      (creating (List.replicate 17 0) 4).host = moves ++ [.takeResponse] ∧
      (List.replicate 17 (0 : Byte)).length > (creating (List.replicate 17 0) 4).bufCap.toNat :=
  ⟨by rw [List.length_replicate], by decide,
    ⟨_, rfl, rfl, rfl, rfl, by decide +kernel, by decide +kernel, by decide +kernel⟩,
    _, rfl, rfl, rfl, by decide +kernel⟩

/-- Each operand at the last value that fits its field, and at the first that does not. -/
theorem witness_AssemblerRefusesWideOperands :
    (4294967295 < 2 ^ 32 ∧ 18446744073709551615 < 2 ^ 64) ∧
    ¬(4294967296 < 2 ^ 32 ∧ 0 < 2 ^ 64) ∧ ¬(0 < 2 ^ 32 ∧ 18446744073709551616 < 2 ^ 64) ∧
    2 ^ 64 ≤ 18446744073709551616 ∧ 255 ≤ 255 ∧ 255 < 256 := by
  decide

/-- `SEEK 8` from the last window: the ROLL fails after the RESET. -/
theorem witness_PseudoInstructions :
    ∃ t u, exec .reset inst7 = .next t ∧ exec (.roll 8) t = .next u ∧ u.rspStatus = 0x02 :=
  ⟨_, _, rfl, rfl, rfl⟩

end Sys2Proof.Tests
end

section
/-! Rotation (00_scope.md R10). Counted from the most significant bit, a rotation by `r` only reads each bit
`r` places on, modulo 64 (`getMsbD_rotl`); the laws of rotation are that fact read bit by bit. -/
namespace Sys2Proof.Machine

theorem getMsbD_rotl (x : Word) (r : Nat) {n : Nat} (hn : n < 64) :
    (rotl x r).getMsbD n = x.getMsbD ((r + n) % 64) := by
  simp [rotl, BitVec.getMsbD_rotateLeft, hn]

theorem toNat_rotl (x : Word) (r : Nat) :
    (rotl x r).toNat = x.toNat <<< (r % 64) % 2 ^ 64 ||| x.toNat >>> (64 - r % 64) :=
  BitVec.toNat_rotateLeft

theorem rotl_of_mod_eq_zero (x : Word) {r : Nat} (hr : r % 64 = 0) : rotl x r = x := by
  refine BitVec.eq_of_getMsbD_eq fun n hn => ?_
  have hpos : (r + n) % 64 = n := by omega
  rw [getMsbD_rotl x r hn, hpos]

@[simp] theorem rotl_sixtyFour (x : Word) : rotl x 64 = x :=
  rotl_of_mod_eq_zero x rfl

/-- The formula of R10 cuts the whole disjunction to 64 bits; the right shift never leaves them. -/
theorem rotl_eq_ofNat_shifts (x : Word) (r : Nat) :
    rotl x r =
      BitVec.ofNat 64 ((x.toNat <<< (r % 64) ||| x.toNat >>> (64 - r % 64)) % 2 ^ 64) := by
  have hright : x.toNat >>> (64 - r % 64) < 2 ^ 64 :=
    (Nat.shiftRight_le _ _).trans_lt x.isLt
  apply BitVec.eq_of_toNat_eq
  rw [toNat_rotl, BitVec.toNat_ofNat, Nat.mod_mod, Nat.or_mod_two_pow, Nat.mod_eq_of_lt hright]

theorem rotl_rotl (x : Word) (a b : Nat) : rotl (rotl x a) b = rotl x (a + b) := by
  refine BitVec.eq_of_getMsbD_eq fun n hn => ?_
  have hlt : (b + n) % 64 < 64 := Nat.mod_lt _ (by decide)
  rw [getMsbD_rotl _ b hn, getMsbD_rotl x a hlt, getMsbD_rotl x (a + b) hn, Nat.add_mod_mod,
    Nat.add_assoc]

theorem rotl_xor (x y : Word) (r : Nat) : rotl (x ^^^ y) r = rotl x r ^^^ rotl y r := by
  refine BitVec.eq_of_getMsbD_eq fun n hn => ?_
  simp only [BitVec.getMsbD_xor, getMsbD_rotl _ r hn]

@[simp] theorem rotl_zero_left (r : Nat) : rotl 0#64 r = 0#64 := by
  refine BitVec.eq_of_getMsbD_eq fun n hn => ?_
  rw [getMsbD_rotl _ r hn, BitVec.getMsbD_zero, BitVec.getMsbD_zero]

/-- Settles O38, from the position of each bit after a rotation. -/
theorem rotationLaws : Obligations.RotationLaws := fun x y r a b =>
  ⟨rotl_of_mod_eq_zero x, fun _ => rotl_eq_ofNat_shifts x r, rotl_sixtyFour x, rotl_rotl x a b,
    rotl_xor x y r, rotl_zero_left r⟩

end Sys2Proof.Machine
end

section
/-! What a command, a host move and a step can leave, said once for the statements of 10_state.md. A command
fails, reads, writes the cursor or streams (`CommandEffect`); a move of the host runs a command or uses one
of the other ports (`MoveEffect`); and what every move keeps, every step keeps (`step_keeps`). -/
namespace Sys2Proof.Machine

/-! ### Status codes -/

theorem Status.code_eq_zero {e : Status} : e.code = 0x00 ↔ e = .ok := by
  cases e <;> decide

theorem Status.code_eq_notWritable {e : Status} : e.code = Status.notWritable.code ↔ e = .notWritable := by
  cases e <;> decide

theorem Status.code_le_seven (e : Status) : e.code.toNat ≤ 7 := by
  cases e <;> decide

/-! ### Commands -/

/-- The commands whose only write is the response (10_state.md R29). -/
def onlyReads : Instr → Bool
  | .position | .sum64 | .oneshot _ _ | .lookup _ => true
  | .create _ _ | .roll _ | .bulkroll _ | .reset => false

theorem onlyReads_iff {i : Instr} : onlyReads i = true ↔
    i = .position ∨ i = .sum64 ∨ (∃ start n, i = .oneshot start n) ∨ ∃ b, i = .lookup b := by
  cases i <;> simp [onlyReads]

/-- What a command can leave, with the checks and the reads of BUF that it passed. -/
inductive CommandEffect (s : State) : Instr → State → Prop
  /-- A failure of any command (60_exceptions.md R162); NOT_WRITABLE is none of the block's (R166). -/
  | fails {i : Instr} {e : Status} (hok : e ≠ .ok) (hwritable : e ≠ .notWritable) :
      CommandEffect s i (raise e s)
  /-- POSITION, SUM64, ONESHOT and LOOKUP. -/
  | reads {i : Instr} (hi : onlyReads i = true) (r : Word) : CommandEffect s i (respond .ok r s)
  /-- A successful CREATE (42_rolling_window.md R101). -/
  | creates {l : U32} {w : Word} {window : List Byte} (hl : l.toNat ≤ s.bufCap.toNat)
      (hw : w.toNat ≤ l.toNat) (hread : readRange s 0 w.toNat = .next window) :
      CommandEffect s (.create l w) (respond .ok (oneShotHash s.rom window)
        (setInstance l (windowOperand w) (oneShotHash s.rom window) s))
  /-- A successful ROLL (R102). -/
  | rolls {step : Word} {c : Working} (hi : s.instValid = true)
      (hend : s.pos.toNat + step.toNat + s.win.toNat ≤ s.len.toNat)
      (hc : rollSteps s step.toNat (s.pos.toNat, s.hash) = .next c) :
      CommandEffect s (.roll step) (respond .ok c.2 (setCursor (BitVec.ofNat 32 c.1) c.2 s))
  /-- A successful RESET (R104). -/
  | resets {window : List Byte} (hi : s.instValid = true)
      (hread : readRange s 0 s.win.toNat = .next window) :
      CommandEffect s .reset
        (respond .ok (oneShotHash s.rom window) (setCursor 0 (oneShotHash s.rom window) s))
  /-- A successful BULKROLL (43_bulk_roll.md R130). -/
  | streams {stride : Word} (ws : List Word) (hi : s.instValid = true) (hstride : stride ≠ 0#64)
      (hws : bulkWords s stride.toNat (s.len.toNat - s.pos.toNat) (s.pos.toNat, s.hash) = .next ws) :
      CommandEffect s (.bulkroll stride) (streamOut ws (BitVec.ofNat 64 ws.length) s)

theorem exec_effect {i : Instr} {s t : State} (h : exec i s = .next t) : CommandEffect s i t := by
  cases i with
  | create l w =>
    obtain ⟨-, rfl⟩ | ⟨-, -, rfl⟩ | ⟨hl, hw, window, hread, rfl⟩ := execCreate_eq_next h
    · exact .fails nofun nofun
    · exact .fails nofun nofun
    · exact .creates (by simpa [createOutOfRange] using hl) (by simpa [windowTooLong] using hw) hread
  | roll step =>
    obtain ⟨-, rfl⟩ | ⟨-, -, rfl⟩ | ⟨hi, hp, c, hc, rfl⟩ := execRoll_eq_next h
    · exact .fails nofun nofun
    · exact .fails nofun nofun
    · exact .rolls hi (by simpa [rollPastEnd] using hp) hc
  | bulkroll stride =>
    obtain ⟨-, rfl⟩ | ⟨-, -, rfl⟩ | ⟨hi, hs, ws, hws, rfl⟩ := execBulkroll_eq_next h
    · exact .fails nofun nofun
    · exact .fails nofun nofun
    · exact .streams ws hi hs hws
  | reset =>
    obtain ⟨-, rfl⟩ | ⟨hi, window, hread, rfl⟩ := execReset_eq_next h
    · exact .fails nofun nofun
    · exact .resets hi hread
  | position =>
    rw [exec_position, execPosition_eq] at h
    split at h <;> cases h
    · exact .fails nofun nofun
    · exact .reads rfl _
  | sum64 =>
    rw [exec_sum64, execSum64_eq] at h
    split at h <;> cases h
    · exact .fails nofun nofun
    · exact .reads rfl _
  | oneshot start n =>
    obtain ⟨-, rfl⟩ | ⟨-, _, -, rfl⟩ := execOneshot_eq_next h
    · exact .fails nofun nofun
    · exact .reads rfl _
  | lookup b =>
    cases h
    exact .reads rfl _

/-- An illegal word leaves what a failing command leaves (60_exceptions.md R168). -/
theorem runCommand_effect {w : CmdWord} {s t : State} (h : runCommand w s = .next t) :
    ∃ i, CommandEffect s i t := by
  obtain ⟨_, -, he⟩ | ⟨i, -, he⟩ := runCommand_eq (w := w) (s := s)
  · cases he.symm.trans h
    exact ⟨.position, .fails nofun nofun⟩
  · exact ⟨i, exec_effect (he.symm.trans h)⟩

/-! ### Host moves and steps -/

theorem acceptsCommand_iff {s : State} : acceptsCommand s = true ↔ s.rspPhase ≠ .held ∧ s.bulk = none := by
  simp [acceptsCommand]

/-- What an accepted move of the host can leave (20_memory.md R48). -/
inductive MoveEffect (s : State) : HostMove → State → Prop
  /-- A command runs on a free channel. -/
  | command {w : CmdWord} {i : Instr} {t : State} (ha : acceptsCommand s = true)
      (h : CommandEffect s i t) : MoveEffect s (.command w) t
  /-- A write outside BUF (20_memory.md R45). -/
  | ignores {i : U32} {v : Byte} : MoveEffect s (.writeByte i v) s
  /-- A write beyond the bytes below LEN, where INST_VALID is 1 (R46). -/
  | writes {i : U32} {v : Byte} (hl : s.instValid = true → s.len.toNat ≤ i.toNat) :
      MoveEffect s (.writeByte i v) { s with buf := s.buf.write i.toNat v }
  /-- A word leaves OUT. -/
  | takesOut : MoveEffect s .takeOut (takeOut s)
  /-- The response is taken. -/
  | takesResponse (hp : s.rspPhase = .held) : MoveEffect s .takeResponse (takeResponse s)
  /-- The reset input. -/
  | blockResets : MoveEffect s .blockReset (blockReset s)

theorem applyMove_effect {m : HostMove} {s t : State} (ha : accepts s m = true)
    (h : applyMove m s = .next t) : MoveEffect s m t := by
  cases m with
  | command w =>
    obtain ⟨i, hi⟩ := runCommand_effect h
    exact .command ha hi
  | writeByte i v =>
    obtain ⟨-, rfl⟩ | ⟨-, hl, rfl⟩ := hostWrite_eq_next h
    · exact .ignores
    · exact .writes hl
  | takeOut => cases h; exact .takesOut
  | takeResponse => cases h; exact .takesResponse (beq_iff_eq.1 ha)
  | blockReset => cases h; exact .blockResets

/-- Whether a port accepts does not depend on the moves to come. -/
theorem accepts_withHost (s : State) (rest : List HostMove) (m : HostMove) :
    accepts { s with host := rest } m = accepts s m := by
  cases m <;> rfl

/-- A step waits, or leaves what its move leaves. -/
theorem step_effect {s t : State} (h : step s = .next t) :
    t = s ∨ ∃ m rest, nextMove s s.host = some (m, rest) ∧ MoveEffect { s with host := rest } m t := by
  obtain ⟨-, rfl⟩ | ⟨m, rest, hn, ha, h⟩ := step_eq_next h
  · exact .inl rfl
  · exact .inr ⟨m, rest, hn, applyMove_effect ((accepts_withHost s rest m).trans ha) h⟩

/-- What does not depend on the moves to come and every move keeps, every step keeps. -/
theorem step_keeps {P : State → Prop} (hhost : ∀ u rest, P u → P { u with host := rest })
    (hmove : ∀ m u v, P u → MoveEffect u m v → P v) {s t : State} (hs : P s) (h : step s = .next t) :
    P t := by
  obtain rfl | ⟨m, rest, -, hm⟩ := step_effect h
  · exact hs
  · exact hmove m _ t (hhost s rest hs) hm

end Sys2Proof.Machine
end

section
/-! What entering and leaving OUT does: the output stream's frame and its order (10_state.md R27). -/
namespace Sys2Proof.Machine

theorem streamOut_frame (ws : List Word) (k : Word) (s : State) :
    streamOut ws k s = { s with
      out := (streamOut ws k s).out, bulk := (streamOut ws k s).bulk
      rspStatus := (streamOut ws k s).rspStatus, rspResult := (streamOut ws k s).rspResult
      rspPhase := (streamOut ws k s).rspPhase } := by
  unfold streamOut; split <;> rfl

theorem prefix_streamOut_out (ws : List Word) (k : Word) (s : State) :
    s.out <+: (streamOut ws k s).out := by
  unfold streamOut; split <;> exact List.prefix_append _ _

/-- The words are in OUT or wait for it, behind the older ones. -/
theorem streamOut_out_append_pending (ws : List Word) (k : Word) (s : State) :
    (streamOut ws k s).out ++ pendingWords (streamOut ws k s) = s.out ++ ws := by
  obtain h | h := Nat.lt_or_ge s.outDepth (s.out.length + ws.length)
  · rw [streamOut_waits h]
    simp [pendingWords]
  · rw [streamOut_fits h]
    simp [pendingWords]

theorem takeOut_of_bulk_none {s : State} (h : s.bulk = none) : takeOut s = { s with out := s.out.tail } := by
  rw [takeOut, h]

theorem takeOut_of_bulk_some {s : State} {b : Bulk} (h : s.bulk = some b) :
    takeOut s = streamOut b.pending b.count { s with out := s.out.tail } := by
  rw [takeOut, h]

/-- Settles O44: a word leaves at the head, and the words that wait enter behind the others. -/
theorem outIsFirstInFirstOut : Obligations.OutIsFirstInFirstOut := by
  intro s hne
  refine ⟨takeOut s, rfl, ?_⟩
  cases hb : s.bulk with
  | none =>
    rw [takeOut_of_bulk_none hb]
    refine ⟨?_, rfl, fun _ => by rw [hb]⟩
    simp [pendingWords, hb]
  | some b =>
    rw [takeOut_of_bulk_some hb]
    refine ⟨?_, streamOut_frame _ _ _, nofun⟩
    rw [streamOut_out_append_pending, pendingWords, hb, List.tail_append_of_ne_nil hne]

end Sys2Proof.Machine
end

section
/-! The frames of the commands (10_state.md R29), and who writes INST_VALID, LEN and WIN (R21 to R23). -/
namespace Sys2Proof.Machine

/-- Settles O20. -/
theorem readingCommandsFrame : Obligations.ReadingCommandsFrame := by
  intro i s t hi h
  have hreads : onlyReads i = true := onlyReads_iff.2 hi
  cases exec_effect h with
  | fails => exact ⟨rfl, fun _ => rfl⟩
  | reads => exact ⟨rfl, fun _ => rfl⟩
  | creates | rolls | resets | streams => cases hreads

/-- Settles O21. -/
theorem createFrame : Obligations.CreateFrame := by
  intro l w s t h
  cases exec_effect h with
  | fails => exact ⟨rfl, fun _ => rfl, fun _ => rfl⟩
  | reads hi => cases hi
  | creates => exact ⟨rfl, fun _ => rfl, fun hf => absurd rfl hf⟩

/-- Settles O22. -/
theorem rollAndResetFrame : Obligations.RollAndResetFrame := by
  intro i s t hi h
  cases exec_effect h with
  | fails => exact ⟨rfl, fun _ => rfl, fun _ => rfl⟩
  | reads hr => obtain ⟨_, rfl⟩ | rfl := hi <;> cases hr
  | rolls => exact ⟨rfl, fun _ => rfl, fun hf => absurd rfl hf⟩
  | resets => exact ⟨rfl, fun _ => rfl, fun hf => absurd rfl hf⟩
  | creates | streams => simp at hi

/-- Settles O23. -/
theorem bulkrollFrame : Obligations.BulkrollFrame := by
  intro stride s t h
  cases exec_effect h with
  | fails => exact ⟨rfl, List.prefix_rfl, fun _ => rfl⟩
  | reads hi => cases hi
  | streams ws =>
    exact ⟨streamOut_frame ws _ s, prefix_streamOut_out ws _ s, readBuf_congr (by simp) (by simp)⟩

theorem CommandEffect.keeps_instance {s t : State} {i : Instr} (h : CommandEffect s i t)
    (hi : ∀ l w, i ≠ .create l w) : t.len = s.len ∧ t.win = s.win ∧ t.instValid = s.instValid := by
  cases h with
  | fails | reads | rolls | resets => exact ⟨rfl, rfl, rfl⟩
  | creates => exact absurd rfl (hi _ _)
  | streams ws => exact ⟨streamOut_len ws _ s, streamOut_win ws _ s, streamOut_instValid ws _ s⟩

/-- WIN loses no bit of a window size that passes CREATE's second check (42_rolling_window.md R101). -/
theorem toNat_windowOperand {l : U32} {w : Word} (h : w.toNat ≤ l.toNat) :
    (windowOperand w).toNat = w.toNat := by
  rw [windowOperand, BitVec.toNat_setWidth, Nat.mod_eq_of_lt (h.trans_lt l.isLt)]

/-- What a CREATE leaves: a failure, or INST_VALID, LEN and WIN from its operands. -/
theorem CommandEffect.of_create {l : U32} {w : Word} {s t : State} (h : CommandEffect s (.create l w) t) :
    (∃ e, e ≠ .ok ∧ t = raise e s) ∨
      (t.rspStatus = 0x00 ∧ t.instValid = true ∧ t.len = l ∧ t.win.toNat = w.toNat) := by
  cases h with
  | fails hok => exact .inl ⟨_, hok, rfl⟩
  | reads hi => cases hi
  | creates _ hw =>
    refine .inr ⟨rfl, rfl, rfl, ?_⟩
    rw [respond_win, setInstance_win, toNat_windowOperand hw]

theorem MoveEffect.keeps_instValid {m : HostMove} {s t : State} (h : MoveEffect s m t)
    (hm : m ≠ .blockReset) (hi : s.instValid = true) : t.instValid = true := by
  cases h with
  | @command _ i _ _ h =>
    by_cases hcreate : ∃ l w, i = .create l w
    · obtain ⟨l, w, rfl⟩ := hcreate
      obtain ⟨e, -, rfl⟩ | ⟨-, hvalid, -⟩ := h.of_create
      · exact hi
      · exact hvalid
    · obtain ⟨-, -, hvalid⟩ := h.keeps_instance fun l w he => hcreate ⟨l, w, he⟩
      exact hvalid.trans hi
  | ignores | writes | takesResponse => exact hi
  | takesOut => exact (takeOut_instValid s).trans hi
  | blockResets => exact absurd rfl hm

/-- The cursor commands check INST_VALID first (60_exceptions.md R167, R170). -/
theorem exec_cursorCommand_of_not_instValid {s : State} (h : s.instValid = false) (a : Word) :
    ∀ i ∈ [Instr.roll a, .bulkroll a, .reset, .position, .sum64], exec i s = .next (answered s 0x05 0) := by
  simp [execRoll, execBulkroll, execReset, execPosition, execSum64, h, raise_eq_answered, Status.code]

/-- Settles O28: every move but the block reset keeps INST_VALID at 1. -/
theorem instValidIsClearedOnlyByReset : Obligations.InstValidIsClearedOnlyByReset := by
  refine ⟨fun s t h hs ht => ?_, fun l w s t h hok => ?_,
    fun s a h => exec_cursorCommand_of_not_instValid h a⟩
  · obtain rfl | ⟨m, rest, hn, hm⟩ := step_effect h
    · simp [hs] at ht
    · have hreset : m = .blockReset := by
        by_contra hne
        simp [hm.keeps_instValid hne hs] at ht
      exact ⟨rest, hreset ▸ hn⟩
  · obtain ⟨e, he, rfl⟩ | ⟨-, hvalid, -⟩ := (exec_effect h).of_create
    · exact absurd (Status.code_eq_zero.1 hok) he
    · exact hvalid

/-- Settles O29: no other command writes these registers, and a CREATE that fails does not either. -/
theorem onlyCreateWritesLenAndWin : Obligations.OnlyCreateWritesLenAndWin := by
  intro i s t h hchange
  have hsame : ¬(t.len = s.len ∧ t.win = s.win ∧ t.instValid = s.instValid) := by
    rintro ⟨hl, hw, hi⟩
    simp [hl, hw, hi] at hchange
  by_cases hcreate : ∃ l w, i = .create l w
  · obtain ⟨l, w, rfl⟩ := hcreate
    obtain ⟨e, -, rfl⟩ | ⟨hok, -, hl, hw⟩ := (exec_effect h).of_create
    · exact absurd ⟨rfl, rfl, rfl⟩ hsame
    · exact ⟨⟨l, w, rfl, hl, hw⟩, hok⟩
  · exact absurd ((exec_effect h).keeps_instance fun l w he => hcreate ⟨l, w, he⟩) hsame

end Sys2Proof.Machine
end

section
/-! The response registers: no command reads them (10_state.md R31), and they hold only what the status
table allows (R28; 60_exceptions.md R160). -/
namespace Sys2Proof.Machine

/-- `s` with another pair in the response registers. -/
def withResponse (code : Byte) (result : Word) (s : State) : State :=
  { s with rspStatus := code, rspResult := result }

/-- A command that answers within its step leaves nothing of the earlier response. -/
theorem exec_withResponse {i : Instr} (hi : ∀ stride, i ≠ .bulkroll stride) (code : Byte) (result : Word)
    (s : State) : exec i (withResponse code result s) = exec i s := by
  have hhash : hashRange (withResponse code result s) = hashRange s :=
    funext₂ (hashRange_congr rfl rfl rfl)
  have hroll : rollSteps (withResponse code result s) = rollSteps s :=
    funext₂ (rollSteps_congr rfl rfl rfl rfl)
  cases i with
  | create l w => rw [exec_create, execCreate, hhash]; rfl
  | roll step => rw [exec_roll, execRoll, hroll]; rfl
  | bulkroll stride => exact absurd rfl (hi stride)
  | reset => rw [exec_reset, execReset, hhash]; rfl
  | position => rfl
  | sum64 => rfl
  | oneshot start n => rw [exec_oneshot, execOneshot, hhash]; rfl
  | lookup b => rfl

theorem CommandEffect.held {i : Instr} {s t : State} (h : CommandEffect s i t)
    (hi : ∀ stride, i ≠ .bulkroll stride) : t.rspPhase = .held := by
  cases h with
  | fails | reads | creates | rolls | resets => rfl
  | streams => exact absurd rfl (hi _)

/-- A BULKROLL fails or computes its words without the earlier response. -/
theorem execBulkroll_withResponse {stride : Word} {s t : State} (code : Byte) (result : Word)
    (h : execBulkroll stride s = .next t) :
    (∃ e, t = raise e s ∧ execBulkroll stride (withResponse code result s) = .next t) ∨
      ∃ ws k, t = streamOut ws k s ∧
        execBulkroll stride (withResponse code result s) =
          .next (streamOut ws k (withResponse code result s)) := by
  have hwords : bulkWords (withResponse code result s) = bulkWords s :=
    funext fun stride => funext₂
      (bulkWords_congr (s := s) (t := withResponse code result s) rfl rfl rfl rfl rfl stride)
  rw [execBulkroll, hwords]
  obtain ⟨hi, rfl⟩ | ⟨hi, hs, rfl⟩ | ⟨hi, hs, ws, hws, rfl⟩ := execBulkroll_eq_next h
  · exact .inl ⟨_, rfl, if_pos hi⟩
  · exact .inl ⟨_, rfl, by simp [withResponse, hi, hs, raise, respond]⟩
  · exact .inr ⟨ws, _, rfl, by simp [withResponse, hi, hs, hws]⟩

/-- Settles O30: a BULKROLL is the only command that may leave the registers, and only while it waits. -/
theorem noCommandReadsTheResponse : Obligations.NoCommandReadsTheResponse := by
  intro i s t code result ha h
  change ∃ t', exec i (withResponse code result s) = .next t' ∧
    (t.rspPhase = .held → t' = t) ∧ (t.rspPhase ≠ .held → t' = withResponse code result t)
  by_cases hbulk : ∃ stride, i = .bulkroll stride
  · obtain ⟨stride, rfl⟩ := hbulk
    obtain ⟨e, rfl, h'⟩ | ⟨ws, k, rfl, h'⟩ := execBulkroll_withResponse code result h
    · exact ⟨_, h', fun _ => rfl, fun hp => absurd rfl hp⟩
    · refine ⟨_, h', ?_⟩
      obtain ⟨hfree, -⟩ := acceptsCommand_iff.1 ha
      obtain hwaits | hfits := Nat.lt_or_ge s.outDepth (s.out.length + ws.length)
      · rw [streamOut_waits hwaits, streamOut_waits (s := withResponse code result s) hwaits]
        exact ⟨fun hp => absurd hp hfree, fun _ => rfl⟩
      · rw [streamOut_fits hfits, streamOut_fits (s := withResponse code result s) hfits]
        exact ⟨fun _ => rfl, fun hp => absurd rfl hp⟩
  · have hi : ∀ stride, i ≠ .bulkroll stride := fun stride he => hbulk ⟨stride, he⟩
    exact ⟨t, (exec_withResponse hi code result s).trans h, fun _ => rfl,
      fun hp => absurd ((exec_effect h).held hi) hp⟩

theorem responseLegal_of_ok {s : State} (h : s.rspStatus = Status.ok.code) : ResponseLegal s :=
  ⟨h ▸ Status.ok.code_le_seven, h ▸ by decide, fun hne => absurd h hne⟩

theorem responseLegal_raise {e : Status} (he : e ≠ .notWritable) (s : State) : ResponseLegal (raise e s) :=
  ⟨e.code_le_seven, Status.code_eq_notWritable.not.2 he, fun _ => rfl⟩

theorem streamOut_keeps_responseLegal {s : State} (hs : ResponseLegal s) (ws : List Word) (k : Word) :
    ResponseLegal (streamOut ws k s) := by
  obtain hwaits | hfits := Nat.lt_or_ge s.outDepth (s.out.length + ws.length)
  · rw [streamOut_waits hwaits]
    exact hs
  · rw [streamOut_fits hfits]
    exact responseLegal_of_ok rfl

theorem CommandEffect.keeps_responseLegal {i : Instr} {s t : State} (h : CommandEffect s i t)
    (hs : ResponseLegal s) : ResponseLegal t := by
  cases h with
  | fails _ hwritable => exact responseLegal_raise hwritable s
  | reads | creates | rolls | resets => exact responseLegal_of_ok rfl
  | streams ws => exact streamOut_keeps_responseLegal hs ws _

theorem takeOut_keeps_responseLegal {s : State} (hs : ResponseLegal s) : ResponseLegal (takeOut s) := by
  cases hb : s.bulk with
  | none => rw [takeOut_of_bulk_none hb]; exact hs
  | some b =>
    rw [takeOut_of_bulk_some hb]
    exact streamOut_keeps_responseLegal (s := { s with out := s.out.tail }) hs _ _

theorem MoveEffect.keeps_responseLegal {m : HostMove} {s t : State} (h : MoveEffect s m t)
    (hs : ResponseLegal s) : ResponseLegal t := by
  cases h with
  | command _ h => exact h.keeps_responseLegal hs
  | ignores | writes | takesResponse => exact hs
  | takesOut => exact takeOut_keeps_responseLegal hs
  | blockResets => exact responseLegal_of_ok rfl

/-- Settles O54. -/
theorem stepKeepsResponseLegal : Obligations.StepKeepsResponseLegal := fun _ _ =>
  step_keeps (fun _ _ hs => hs) fun _ _ _ hs h => h.keeps_responseLegal hs

end Sys2Proof.Machine
end

section
/-! The output stream stays within OUT_DEPTH, and a BULKROLL waits only on a full OUT (10_state.md R27;
43_bulk_roll.md R135). -/
namespace Sys2Proof.Machine

/-- A stream that starts with no response held stops only at a full OUT, with words left. -/
theorem streamWellFormed_streamOut {s : State} (hlen : s.out.length ≤ s.outDepth)
    (hfree : s.rspPhase ≠ .held) (ws : List Word) (k : Word) : StreamWellFormed (streamOut ws k s) := by
  obtain hwaits | hfits := Nat.lt_or_ge s.outDepth (s.out.length + ws.length)
  · rw [streamOut_waits hwaits]
    have hfull : (s.out ++ ws.take (s.outDepth - s.out.length)).length = s.outDepth := by
      simp only [List.length_append, List.length_take]
      omega
    have hleft : ws.drop (s.outDepth - s.out.length) ≠ [] := by
      rw [ne_eq, List.drop_eq_nil_iff]
      omega
    refine ⟨hfull.le, fun b hb => ?_⟩
    cases hb
    exact ⟨hfull, hleft, hfree⟩
  · rw [streamOut_fits hfits]
    exact ⟨by simpa using hfits, nofun⟩

theorem streamWellFormed_of_bulk_none {s : State} (hlen : s.out.length ≤ s.outDepth) (hb : s.bulk = none) :
    StreamWellFormed s :=
  ⟨hlen, fun _ h => nomatch hb.symm.trans h⟩

theorem CommandEffect.keeps_streamWellFormed {i : Instr} {s t : State} (h : CommandEffect s i t)
    (ha : acceptsCommand s = true) (hlen : s.out.length ≤ s.outDepth) : StreamWellFormed t := by
  obtain ⟨hfree, hb⟩ := acceptsCommand_iff.1 ha
  cases h with
  | fails | reads | creates | rolls | resets => exact streamWellFormed_of_bulk_none hlen hb
  | streams ws => exact streamWellFormed_streamOut hlen hfree ws _

theorem takeOut_keeps_streamWellFormed {s : State} (hs : StreamWellFormed s) :
    StreamWellFormed (takeOut s) := by
  obtain ⟨hlen, hwait⟩ := hs
  have htail : s.out.tail.length ≤ s.outDepth := s.out.length_tail.trans_le ((Nat.sub_le _ _).trans hlen)
  cases hb : s.bulk with
  | none =>
    rw [takeOut_of_bulk_none hb]
    exact streamWellFormed_of_bulk_none htail hb
  | some b =>
    obtain ⟨-, -, hfree⟩ := hwait b hb
    rw [takeOut_of_bulk_some hb]
    exact streamWellFormed_streamOut (s := { s with out := s.out.tail }) htail hfree _ _

theorem MoveEffect.keeps_streamWellFormed {m : HostMove} {s t : State} (h : MoveEffect s m t)
    (hs : StreamWellFormed s) : StreamWellFormed t := by
  cases h with
  | command ha h => exact h.keeps_streamWellFormed ha hs.1
  | ignores | writes => exact hs
  | takesOut => exact takeOut_keeps_streamWellFormed hs
  | takesResponse hp =>
    obtain ⟨hlen, hwait⟩ := hs
    exact ⟨hlen, fun b hb => absurd hp (hwait b hb).2.2⟩
  | blockResets => exact streamWellFormed_of_bulk_none (Nat.zero_le _) rfl

/-- Settles O53. -/
theorem stepKeepsStreamWellFormed : Obligations.StepKeepsStreamWellFormed := fun _ _ =>
  step_keeps (fun _ _ hs => hs) fun _ _ _ hs h => h.keeps_streamWellFormed hs

end Sys2Proof.Machine
end

section
/-! The cursor stays in bounds, and HASH stays the one-shot hash of the window at POS (10_state.md R25, R26).
The one idea: the window at POS followed by the entering byte is the leaving byte followed by the window at
POS + 1, also where the window is empty. -/
namespace Sys2Proof.Machine

/-! ### The one-shot hash of a moving window -/

/-- One more byte at the end rotates what was there by one (41_oneshot.md R92). -/
theorem oneShotHash_append_singleton (rom : Vector Word 256) (bs : List Byte) (d : Byte) :
    oneShotHash rom (bs ++ [d]) = rotl (oneShotHash rom bs) 1 ^^^ tableWord rom d := by
  induction bs with
  | nil => simp [oneShotHash, rotl_of_mod_eq_zero]
  | cons c cs ih =>
    simp only [List.cons_append, oneShotHash, ih, List.length_append, List.length_singleton, rotl_xor,
      rotl_rotl, BitVec.xor_assoc]

/-- A range and the byte behind it are the range that is one longer. -/
theorem readRange_append_singleton {s : State} {i n : Nat} {bs : List Byte} {d : Byte}
    (h : readRange s i n = .next bs) (hd : readBuf s (i + n) = .next d) :
    readRange s i (n + 1) = .next (bs ++ [d]) := by
  induction n generalizing i bs with
  | zero =>
    cases h
    simp only [readRange, Nat.add_zero] at hd ⊢
    simp [hd]
  | succ n ih =>
    simp only [readRange, andThen_eq_next, Host.Outcome.next.injEq] at h
    obtain ⟨b, hb, bs, hbs, rfl⟩ := h
    have hrest := ih hbs (by rwa [Nat.add_assoc, Nat.add_comm 1 n])
    rw [readRange, hb, andThen_next, hrest]
    rfl

/-- The hash of the working copy `c` is the one-shot hash of the window at its position. -/
def WindowHashAt (s : State) (c : Working) : Prop :=
  ∃ window, readRange s c.1 s.win.toNat = .next window ∧ c.2 = oneShotHash s.rom window

theorem hashOfWindow_iff {s : State} :
    HashOfWindow s ↔ (s.instValid = true → WindowHashAt s (s.pos.toNat, s.hash)) :=
  Iff.rfl

theorem windowHashAt_congr {s t : State} (hb : t.buf = s.buf) (hc : t.bufCap = s.bufCap)
    (hr : t.rom = s.rom) (hw : t.win = s.win) (c : Working) : WindowHashAt t c ↔ WindowHashAt s c := by
  simp only [WindowHashAt, readRange_congr hb hc, hr, hw]

/-- One advance hashes the next window (42_rolling_window.md R100, R107). -/
theorem rollStep_keeps_windowHashAt {s : State} {c c' : Working} (hs : WindowHashAt s c)
    (h : rollStep s c = .next c') : WindowHashAt s c' := by
  obtain ⟨p, k⟩ := c
  obtain ⟨old, hold, rfl⟩ := hs
  simp only [rollStep, andThen_eq_next, Host.Outcome.next.injEq] at h
  obtain ⟨leaving, hleaving, entering, hentering, rfl⟩ := h
  have hboth := readRange_append_singleton hold hentering
  simp only [readRange, hleaving, andThen_next, andThen_eq_next, Host.Outcome.next.injEq] at hboth
  obtain ⟨new, hnew, happend⟩ := hboth
  refine ⟨new, hnew, ?_⟩
  have hhash := oneShotHash_append_singleton s.rom old entering
  rw [← happend, oneShotHash, readRange_length hnew] at hhash
  rw [BitVec.xor_comm (rotl _ 1), BitVec.xor_assoc, ← hhash, ← BitVec.xor_assoc, BitVec.xor_self,
    BitVec.zero_xor]

theorem rollSteps_keeps_windowHashAt {s : State} {n : Nat} {c c' : Working} (hs : WindowHashAt s c)
    (h : rollSteps s n c = .next c') : WindowHashAt s c' := by
  induction n generalizing c with
  | zero => cases h; exact hs
  | succ n ih =>
    simp only [rollSteps, andThen_eq_next] at h
    obtain ⟨d, hd, h⟩ := h
    exact ih (rollStep_keeps_windowHashAt hs hd) h

/-! ### Every step -/

theorem CommandEffect.keeps_cursorInBounds {i : Instr} {s t : State} (h : CommandEffect s i t)
    (hs : CursorInBounds s) : CursorInBounds t := by
  cases h with
  | fails | reads => exact hs
  | @creates l w _ hl hw =>
    intro _
    exact ⟨by simpa [toNat_windowOperand hw] using hw, hl⟩
  | @rolls step c hi hend hc =>
    intro _
    have hpos : (BitVec.ofNat 32 c.1).toNat ≤ s.pos.toNat + step.toNat := by
      rw [BitVec.toNat_ofNat, rollSteps_position hc]
      exact Nat.mod_le _ _
    exact ⟨(Nat.add_le_add_right hpos _).trans hend, (hs hi).2⟩
  | resets hi =>
    intro _
    obtain ⟨hwin, hlen⟩ := hs hi
    exact ⟨by simpa using (Nat.le_add_left _ _).trans hwin, hlen⟩
  | streams => simpa [CursorInBounds] using hs

theorem MoveEffect.keeps_cursorInBounds {m : HostMove} {s t : State} (h : MoveEffect s m t)
    (hs : CursorInBounds s) : CursorInBounds t := by
  cases h with
  | command _ h => exact h.keeps_cursorInBounds hs
  | ignores | writes | takesResponse => exact hs
  | takesOut => simpa [CursorInBounds] using hs
  | blockResets => exact nofun

/-- Settles O50. -/
theorem stepKeepsCursorInBounds : Obligations.StepKeepsCursorInBounds := fun _ _ =>
  step_keeps (fun _ _ hs => hs) fun _ _ _ hs h => h.keeps_cursorInBounds hs

/-- HASH and the window depend on the cursor and the memories only. -/
theorem HashOfWindow.congr {s t : State} (hs : HashOfWindow s) (hi : t.instValid = s.instValid)
    (hp : t.pos = s.pos) (hw : t.win = s.win) (hh : t.hash = s.hash) (hb : t.buf = s.buf)
    (hc : t.bufCap = s.bufCap) (hr : t.rom = s.rom) : HashOfWindow t := by
  rw [hashOfWindow_iff] at hs ⊢
  rwa [windowHashAt_congr hb hc hr hw, hi, hp, hh]

@[simp] theorem readRange_respond (e : Status) (r : Word) (s : State) (i n : Nat) :
    readRange (respond e r s) i n = readRange s i n :=
  readRange_congr (respond_buf e r s) (respond_bufCap e r s) i n

@[simp] theorem readRange_setInstance (l w : U32) (h : Word) (s : State) (i n : Nat) :
    readRange (setInstance l w h s) i n = readRange s i n :=
  readRange_congr (setInstance_buf l w h s) (setInstance_bufCap l w h s) i n

@[simp] theorem readRange_setCursor (p : U32) (h : Word) (s : State) (i n : Nat) :
    readRange (setCursor p h s) i n = readRange s i n :=
  readRange_congr (setCursor_buf p h s) (setCursor_bufCap p h s) i n

theorem readRange_write_beyond {s : State} {i n a : Nat} {window : List Byte} (v : Byte)
    (ha : i + n ≤ a) (h : readRange s i n = .next window) :
    readRange { s with buf := s.buf.write a v } i n = .next window := by
  obtain ⟨hlen, hread⟩ := readRange_eq_next.1 h
  refine readRange_eq_next.2 ⟨hlen, fun k hk => ?_⟩
  obtain ⟨hcap, hbyte⟩ := readBuf_eq_next.1 (hread k hk)
  exact readBuf_eq_next.2 ⟨hcap, (Memory.read_write_other v (by omega)).trans hbyte⟩

theorem CommandEffect.keeps_hashOfWindow {i : Instr} {s t : State} (h : CommandEffect s i t)
    (hs : HashOfWindow s) : HashOfWindow t := by
  cases h with
  | fails | reads => exact hs.congr rfl rfl rfl rfl rfl rfl rfl
  | @creates l w window hl hw hread =>
    intro _
    exact ⟨window, by simpa [toNat_windowOperand hw] using hread, rfl⟩
  | @rolls step c hi hend hc =>
    have hpos : (BitVec.ofNat 32 c.1).toNat = c.1 := by
      rw [BitVec.toNat_ofNat, rollSteps_position hc]
      exact Nat.mod_eq_of_lt (by have := s.len.isLt; omega)
    obtain ⟨window, hread, hhash⟩ := rollSteps_keeps_windowHashAt (hashOfWindow_iff.1 hs hi) hc
    exact fun _ => ⟨window, by simpa [hpos] using hread, hhash⟩
  | @resets window hi hread =>
    intro _
    exact ⟨window, by simpa using hread, rfl⟩
  | streams => apply hs.congr <;> simp

theorem MoveEffect.keeps_hashOfWindow {m : HostMove} {s t : State} (h : MoveEffect s m t)
    (hb : CursorInBounds s) (hs : HashOfWindow s) : HashOfWindow t := by
  cases h with
  | command _ h => exact h.keeps_hashOfWindow hs
  | ignores => exact hs
  | @writes a v hl =>
    intro hi
    obtain ⟨window, hread, hhash⟩ := hs hi
    obtain ⟨hwin, -⟩ := hb hi
    exact ⟨window, readRange_write_beyond v (hwin.trans (hl hi)) hread, hhash⟩
  | takesOut => apply hs.congr <;> simp
  | takesResponse => exact hs.congr rfl rfl rfl rfl rfl rfl rfl
  | blockResets => exact nofun

/-- Settles O51, carrying the bounds of the cursor along: they keep a host write out of the window. -/
theorem stepKeepsHashOfWindow : Obligations.StepKeepsHashOfWindow := by
  intro s t hb hs h
  have hboth : CursorInBounds t ∧ HashOfWindow t :=
    step_keeps (P := fun u => CursorInBounds u ∧ HashOfWindow u)
      (fun _ _ ⟨hb, hs⟩ => ⟨hb, hs.congr rfl rfl rfl rfl rfl rfl rfl⟩)
      (fun _ _ _ ⟨hb, hs⟩ h => ⟨h.keeps_cursorInBounds hb, h.keeps_hashOfWindow hb hs⟩) ⟨hb, hs⟩ h
  exact hboth.2

/-- Settles O49: an invariant is about INST_VALID at 1, a written byte, a word of OUT or a failure, and
reset leaves none of them. -/
theorem resetIsGood : Obligations.ResetIsGood where
  left :=
    { bounds := nofun
      hash := nofun
      buffer := ⟨Memory.wf_nil, nofun⟩
      stream := streamWellFormed_of_bulk_none (Nat.zero_le _) rfl
      response := responseLegal_of_ok rfl
      depth := Nat.le_add_left 1 _ }
  right := ⟨rfl, rfl, rfl⟩

end Sys2Proof.Machine
end

section
/-! BUF and ROM (20_memory.md): the block only reads them (R44), every read of BUF is at an index that exists
(R52), and the host's write port is the one writer (R45, R46). -/
namespace Sys2Proof.Machine

/-! ### What commands and streaming leave of the memories -/

theorem CommandEffect.keeps_memories {i : Instr} {s t : State} (h : CommandEffect s i t) :
    t.buf = s.buf ∧ t.bufCap = s.bufCap ∧ t.rom = s.rom := by
  cases h with
  | fails | reads | creates | rolls | resets => exact ⟨rfl, rfl, rfl⟩
  | streams ws => exact ⟨streamOut_buf ws _ s, streamOut_bufCap ws _ s, streamOut_rom ws _ s⟩

theorem runCommand_keeps_memories {w : CmdWord} {s t : State} (h : runCommand w s = .next t) :
    t.buf = s.buf ∧ t.bufCap = s.bufCap ∧ t.rom = s.rom := by
  obtain ⟨_, heffect⟩ := runCommand_effect h
  exact heffect.keeps_memories

/-- Settles O26: a command writes the cursor, OUT and the response, and a word taken moves only OUT. -/
theorem blockNeverWritesMemory : Obligations.BlockNeverWritesMemory := by
  intro s
  refine ⟨fun w t h => ?_, takeOut_buf s, takeOut_rom s⟩
  obtain ⟨hbuf, hcap, hrom⟩ := runCommand_keeps_memories h
  exact ⟨hbuf, hrom, readBuf_congr hbuf hcap⟩

/-! ### The canonical form of BUF -/

theorem BufferWellFormed.congr {s t : State} (hs : BufferWellFormed s) (hb : t.buf = s.buf)
    (hc : t.bufCap = s.bufCap) : BufferWellFormed t := by
  rwa [BufferWellFormed, hb, hc]

theorem BufferWellFormed.write {s : State} (hs : BufferWellFormed s) {i : Nat}
    (hi : i < s.bufCap.toNat) (v : Byte) : BufferWellFormed { s with buf := s.buf.write i v } := by
  obtain ⟨hwf, hbelow⟩ := hs
  refine ⟨Memory.wf_write i v hwf, fun cell hcell => ?_⟩
  obtain rfl | hold := Memory.mem_write hcell
  · exact hi
  · exact hbelow cell hold

theorem applyMove_keeps_bufferWellFormed {m : HostMove} {s t : State} (hs : BufferWellFormed s)
    (h : applyMove m s = .next t) : BufferWellFormed t := by
  cases m with
  | command w =>
    obtain ⟨hbuf, hcap, -⟩ := runCommand_keeps_memories h
    exact hs.congr hbuf hcap
  | writeByte i v =>
    obtain ⟨-, rfl⟩ | ⟨hi, -, rfl⟩ := hostWrite_eq_next h
    · exact hs
    · exact hs.write hi v
  | takeOut =>
    cases h
    exact hs.congr (takeOut_buf s) (takeOut_bufCap s)
  | takeResponse => cases h; exact hs
  | blockReset => cases h; exact ⟨Memory.wf_nil, nofun⟩

/-- Settles O52: the host write port is the one writer of BUF, and it checks the index first. -/
theorem stepKeepsBufferWellFormed : Obligations.StepKeepsBufferWellFormed := by
  intro s t hs h
  obtain ⟨-, rfl⟩ | ⟨m, rest, -, -, hmove⟩ := step_eq_next h
  · exact hs
  · exact applyMove_keeps_bufferWellFormed (s := { s with host := rest }) hs hmove

/-! ### No read outside BUF -/

/-- What cannot fault still cannot when its value is only put to use. -/
theorem andThen_next_ne_fault {α β : Type} {r : Result α} (h : ∀ f, r ≠ .fault f) (g : α → β)
    (f : Fault) : Result.andThen r (fun a => .next (g a)) ≠ .fault f := by
  rw [ne_eq, andThen_eq_fault]
  rintro (hr | ⟨_, _, ⟨⟩⟩)
  exact h f hr

theorem hashRange_ne_fault {s : State} {i n : Nat} (h : i + n ≤ s.bufCap.toNat) (f : Fault) :
    hashRange s i n ≠ .fault f :=
  andThen_next_ne_fault (readRange_ne_fault h) _ f

/-- The loop's own test keeps every turn below LEN (43_bulk_roll.md R130). -/
theorem bulkWords_ne_fault {s : State} (hlen : s.len.toNat ≤ s.bufCap.toNat) (stride fuel : Nat)
    (c : Working) (f : Fault) : bulkWords s stride fuel c ≠ .fault f := by
  induction fuel generalizing c f with
  | zero => exact nofun
  | succ fuel ih =>
    rw [bulkWords]
    split
    · exact nofun
    · rename_i hturn
      rw [ne_eq, andThen_eq_fault]
      rintro (hroll | ⟨c', -, hrest⟩)
      · exact rollSteps_ne_fault (by omega) f hroll
      · exact andThen_next_ne_fault (ih c') _ f hrest

/-- Each command's checks, with the bounds of the cursor, keep its reads below BUF_CAP. -/
theorem exec_ne_fault {s : State} (hs : CursorInBounds s) (i : Instr) (f : Fault) :
    exec i s ≠ .fault f := by
  cases i with
  | create l w =>
    rw [exec_create, execCreate]
    split
    · exact nofun
    · split
      · exact nofun
      · rename_i hl hw
        simp only [createOutOfRange, windowTooLong, decide_eq_true_eq] at hl hw
        exact andThen_next_ne_fault (hashRange_ne_fault (by omega)) _ f
  | roll step =>
    rw [exec_roll, execRoll]
    split
    · exact nofun
    · rename_i hi
      obtain ⟨-, hlen⟩ := hs (by simpa using hi)
      split
      · exact nofun
      · rename_i hend
        simp only [rollPastEnd, decide_eq_true_eq] at hend
        exact andThen_next_ne_fault (rollSteps_ne_fault (by simp only; omega)) _ f
  | bulkroll stride =>
    rw [exec_bulkroll, execBulkroll]
    split
    · exact nofun
    · rename_i hi
      obtain ⟨-, hlen⟩ := hs (by simpa using hi)
      split
      · exact nofun
      · exact andThen_next_ne_fault (bulkWords_ne_fault hlen _ _ _) _ f
  | reset =>
    rw [exec_reset, execReset]
    split
    · exact nofun
    · rename_i hi
      obtain ⟨hwin, hlen⟩ := hs (by simpa using hi)
      exact andThen_next_ne_fault (hashRange_ne_fault (by omega)) _ f
  | position => rw [exec_position, execPosition_eq]; exact nofun
  | sum64 => rw [exec_sum64, execSum64_eq]; exact nofun
  | oneshot start n =>
    rw [exec_oneshot, execOneshot]
    split
    · exact nofun
    · rename_i hend
      simp only [oneshotOutOfRange, decide_eq_true_eq] at hend
      exact andThen_next_ne_fault (hashRange_ne_fault (by omega)) _ f
  | lookup b => exact nofun

theorem runCommand_ne_fault {s : State} (hs : CursorInBounds s) (w : CmdWord) (f : Fault) :
    runCommand w s ≠ .fault f := by
  obtain ⟨_, -, he⟩ | ⟨i, -, he⟩ := runCommand_eq (w := w) (s := s)
  · rw [he]; exact nofun
  · rw [he]; exact exec_ne_fault hs i f

theorem hostWrite_ne_fault (i : U32) (v : Byte) (s : State) (f : Fault) :
    hostWrite i v s ≠ .fault f := by
  unfold hostWrite
  split
  · exact nofun
  · split <;> exact nofun

theorem applyMove_ne_fault {s : State} (hs : CursorInBounds s) (m : HostMove) (f : Fault) :
    applyMove m s ≠ .fault f := by
  cases m with
  | command w => exact runCommand_ne_fault hs w f
  | writeByte i v => exact hostWrite_ne_fault i v s f
  | takeOut | takeResponse | blockReset => exact nofun

/-- Settles O55: only a command reads BUF, and only after its checks. -/
theorem noReadOutsideTheBuffer : Obligations.NoReadOutsideTheBuffer := by
  intro s f hs
  cases hn : nextMove s s.host with
  | none => rw [step_of_none hn]; exact nofun
  | some next =>
    obtain ⟨m, rest⟩ := next
    rw [step_of_nextMove hn]
    exact applyMove_ne_fault (s := { s with host := rest }) hs m f

/-! ### The host write port -/

theorem hostWrite_outside {i : U32} {s : State} (h : s.bufCap.toNat ≤ i.toNat) (v : Byte) :
    hostWrite i v s = .next s :=
  if_pos h

theorem hostWrite_live {i : U32} {s : State} (hcap : i.toNat < s.bufCap.toNat)
    (hi : s.instValid = true) (hlen : i.toNat < s.len.toNat) (v : Byte) :
    hostWrite i v s = .refused (.liveBufferWrite i.toNat) := by
  rw [hostWrite, if_neg hcap.not_ge, if_pos ⟨hi, hlen⟩]

theorem hostWrite_free {i : U32} {s : State} (hcap : i.toNat < s.bufCap.toNat)
    (hlen : s.instValid = true → s.len.toNat ≤ i.toNat) (v : Byte) :
    hostWrite i v s = .next { s with buf := s.buf.write i.toNat v } := by
  rw [hostWrite, if_neg hcap.not_ge, if_neg fun ⟨hi, hlt⟩ => (hlen hi).not_gt hlt]

theorem readBuf_write_same {s : State} {i : Nat} (hi : i < s.bufCap.toNat) (v : Byte) :
    readBuf { s with buf := s.buf.write i v } i = .next v :=
  readBuf_eq_next.2 ⟨hi, Memory.read_write_same s.buf i v⟩

theorem readBuf_write_other {i j : Nat} (h : j ≠ i) (s : State) (v : Byte) :
    readBuf { s with buf := s.buf.write i v } j = readBuf s j := by
  simp only [readBuf, Memory.read_write_other v h]

/-- Settles O43, by the three answers of the port. -/
theorem hostWritePort : Obligations.HostWritePort := fun s _ v =>
  ⟨fun hout => hostWrite_outside hout v,
    fun hcap hi hlen => hostWrite_live hcap hi hlen v,
    fun hcap hlen =>
      ⟨_, hostWrite_free hcap hlen v, rfl, readBuf_write_same hcap v,
        fun _ hj => readBuf_write_other hj s v⟩⟩

end Sys2Proof.Machine
end

section
/-! Encoding (30_encoding.md). A command word is its four fields (R61: `Cmd.ofWord_toWord`,
`Cmd.toWord_ofWord`). On fields, the decoder gives back the command of `Instr.cmd` (R63: `decodeCmd_cmd`), it
accepts only well-formed fields, and these are the fields of a command (R64: `wellFormed_of_decodeCmd`,
`exists_cmd_of_wellFormed`). -/
namespace Sys2Proof

/-! ### The fields of a word (R61) -/

theorem Cmd.ofWord_toWord (c : Cmd) : Cmd.ofWord c.toWord = c := by
  obtain ⟨opc, rsv, b, a⟩ := c
  have hrsv : (a ++ b ++ rsv ++ opc).extractLsb' 8 24 = rsv :=
    (BitVec.extractLsb'_append_eq_of_le (by decide)).trans BitVec.extractLsb'_append_eq_right
  have hb : (a ++ b ++ rsv ++ opc).extractLsb' 32 32 = b := by
    rw [BitVec.extractLsb'_append_eq_of_le (by decide), BitVec.extractLsb'_append_eq_of_le (by decide)]
    exact BitVec.extractLsb'_append_eq_right
  have ha : (a ++ b ++ rsv ++ opc).extractLsb' 64 64 = a := by
    rw [BitVec.extractLsb'_append_eq_of_le (by decide), BitVec.extractLsb'_append_eq_of_le (by decide)]
    exact BitVec.extractLsb'_append_eq_left
  exact (Cmd.mk.injEq ..).mpr ⟨BitVec.extractLsb'_append_eq_right, hrsv, hb, ha⟩

theorem Cmd.toWord_ofWord (w : CmdWord) : (Cmd.ofWord w).toWord = w := by
  calc (Cmd.ofWord w).toWord
      = w.extractLsb' 64 64 ++ w.extractLsb' 32 32 ++ w.extractLsb' 8 24 ++ w.extractLsb' 0 8 := rfl
    _ = w.extractLsb' 32 96 ++ w.extractLsb' 8 24 ++ w.extractLsb' 0 8 := by
        rw [BitVec.extractLsb'_append_extractLsb'_eq_extractLsb' (by rfl)]
    _ = w.extractLsb' 8 120 ++ w.extractLsb' 0 8 := by
        rw [BitVec.extractLsb'_append_extractLsb'_eq_extractLsb' (by rfl)]
    _ = w := BitVec.extractLsb'_append_extractLsb'

/-! ### Operand B of LOOKUP: an index in `B[7:0]`, with `B[31:8]` 0 (R63, R64) -/

theorem toNat_lt_256_iff (b : U32) : b.toNat < 256 ↔ b.extractLsb' 8 24 = 0#24 := by
  rw [← BitVec.toNat_inj, BitVec.extractLsb'_toNat, Nat.shiftRight_eq_div_pow, BitVec.toNat_ofNat]
  omega

theorem setWidth_extractLsb'_low {b : U32} (h : b.extractLsb' 8 24 = 0#24) :
    (b.extractLsb' 0 8).setWidth 32 = b := by
  calc (b.extractLsb' 0 8).setWidth 32
      = 0#24 ++ b.extractLsb' 0 8 := BitVec.setWidth_eq_append (by decide)
    _ = b.extractLsb' 8 24 ++ b.extractLsb' 0 8 := by rw [h]
    _ = b := BitVec.extractLsb'_append_extractLsb'

theorem extractLsb'_high_setWidth (b : Byte) : (b.setWidth 32).extractLsb' 8 24 = 0#24 := by
  rw [← toNat_lt_256_iff, BitVec.toNat_setWidth]
  omega

theorem extractLsb'_low_setWidth (b : Byte) : (b.setWidth 32).extractLsb' 0 8 = b := by
  rw [BitVec.extractLsb'_setWidth_of_le (by decide), BitVec.extractLsb'_eq_self]

/-- `B[31:8]` by its position in the word (R61). -/
theorem extractLsb'_high_operandB (w : CmdWord) :
    (Cmd.ofWord w).b.extractLsb' 8 24 = w.extractLsb' 40 24 := by
  ext i hi
  have hb : 8 + i < 32 := by omega
  have hw : 32 + (8 + i) = 40 + i := by omega
  simp [Cmd.ofWord, hb, hw]

/-! ### The decoder on fields (R63, R65) -/

theorem ite_ok_error_eq_ok {ε α : Type} {p : Prop} [Decidable p] {e : ε} {a b : α} :
    (if p then Except.ok a else .error e) = .ok b ↔ p ∧ a = b := by
  split <;> simp_all

theorem decodeCmd_cmd (i : Instr) : decodeCmd i.cmd = .ok i := by
  cases i with
  | create | roll | bulkroll | reset | position | sum64 | oneshot => rfl
  | lookup b =>
    simp [decodeCmd, Instr.cmd, extractLsb'_high_setWidth, extractLsb'_low_setWidth]

/-! ### The decoder accepts what is well-formed (R64) -/

/-- The table of R63 and the list of R64 as conditions on the fields. -/
theorem Cmd.wellFormed_iff {c : Cmd} : c.wellFormed = true ↔
    (1 ≤ c.opc.toNat ∧ c.opc.toNat ≤ 8) ∧ c.rsv = 0#24 ∧
      (c.opc.toNat ∈ [0x04, 0x05, 0x06, 0x08] → c.a = 0#64) ∧
      (c.opc.toNat ∈ [0x02, 0x03, 0x04, 0x05, 0x06] → c.b = 0#32) ∧
      (c.opc.toNat = 0x08 → c.b.extractLsb' 8 24 = 0#24) := by
  have hlookup : c.opc = 0x08#8 ↔ c.opc.toNat = 0x08 := BitVec.toNat_inj.symm
  simp only [Cmd.wellFormed, Cmd.opcodeDefined, Cmd.mustZeroA, Cmd.mustZeroB, Bool.and_eq_true,
    Bool.or_eq_true, Bool.not_eq_true', decide_eq_true_eq, beq_iff_eq, beq_eq_false_iff_ne,
    List.contains_eq_mem, decide_eq_false_iff_not, toNat_lt_256_iff, hlookup, ne_eq, and_assoc,
    imp_iff_not_or]

theorem wellFormed_of_decodeCmd {c : Cmd} {i : Instr} (h : decodeCmd c = .ok i) :
    c.wellFormed = true := by
  rw [Cmd.wellFormed_iff]
  unfold decodeCmd at h
  split at h
  · cases h
  · rename_i hrsv
    have hrsv : c.rsv = 0#24 := not_not.1 hrsv
    split at h
    case h_1 hopc | h_7 hopc => simp [hopc, hrsv]
    case h_2 hopc | h_3 hopc =>
      obtain ⟨hb, -⟩ := ite_ok_error_eq_ok.1 h
      simp [hopc, hrsv, hb]
    case h_4 hopc | h_5 hopc | h_6 hopc =>
      obtain ⟨⟨ha, hb⟩, -⟩ := ite_ok_error_eq_ok.1 h
      simp [hopc, hrsv, ha, hb]
    case h_8 hopc =>
      split at h
      · cases h
      · rename_i ha
        obtain ⟨hindex, -⟩ := ite_ok_error_eq_ok.1 h
        simp [hopc, hrsv, not_not.1 ha, hindex]
    case h_9 => cases h

/-- Each row of R63 is the command of its opcode. -/
theorem exists_cmd_of_wellFormed {c : Cmd} (h : c.wellFormed = true) : ∃ i : Instr, i.cmd = c := by
  obtain ⟨opc, rsv, b, a⟩ := c
  obtain ⟨⟨hlow, hhigh⟩, rfl, ha, hb, hindex⟩ := Cmd.wellFormed_iff.1 h
  dsimp only at hlow hhigh ha hb hindex
  have hopc : opc = 1#8 ∨ opc = 2#8 ∨ opc = 3#8 ∨ opc = 4#8 ∨ opc = 5#8 ∨ opc = 6#8 ∨ opc = 7#8 ∨
      opc = 8#8 := by bv_omega
  obtain rfl | rfl | rfl | rfl | rfl | rfl | rfl | rfl := hopc
  · exact ⟨.create b a, rfl⟩
  · exact ⟨.roll a, by rw [hb (by decide)]; rfl⟩
  · exact ⟨.bulkroll a, by rw [hb (by decide)]; rfl⟩
  · exact ⟨.reset, by rw [ha (by decide), hb (by decide)]; rfl⟩
  · exact ⟨.position, by rw [ha (by decide), hb (by decide)]; rfl⟩
  · exact ⟨.sum64, by rw [ha (by decide), hb (by decide)]; rfl⟩
  · exact ⟨.oneshot a b, rfl⟩
  · exact ⟨.lookup (b.extractLsb' 0 8), by
      rw [Instr.cmd, setWidth_extractLsb'_low (hindex rfl), ha (by decide)]; rfl⟩

theorem cmd_eq_of_decodeCmd {c : Cmd} {i : Instr} (h : decodeCmd c = .ok i) : i.cmd = c := by
  obtain ⟨j, rfl⟩ := exists_cmd_of_wellFormed (wellFormed_of_decodeCmd h)
  cases (decodeCmd_cmd j).symm.trans h
  rfl

/-! ### The round trips -/

/-- Settles O1: the word keeps the fields, and the fields keep the command. -/
theorem decodeOfEncode : Obligations.DecodeOfEncode := fun i => by
  rw [decode, encode, Cmd.ofWord_toWord, decodeCmd_cmd]

/-- Settles O2, the same two facts read from the word. -/
theorem encodeOfDecode : Obligations.EncodeOfDecode := fun w i h => by
  rw [encode, cmd_eq_of_decodeCmd h, Cmd.toWord_ofWord]

/-- Settles O5: a legal word written out is what the encoder writes, so that the decoder gives the command
back; the decoder refuses the others at its tests. -/
theorem sampleWordsDecode : Obligations.SampleWordsDecode :=
  ⟨decodeOfEncode (.create 0x89ABCDEF 0x0123456789ABCDEF), decodeOfEncode (.roll 0x8000000000000001),
    decodeOfEncode (.bulkroll 0x8000000000000001), decodeOfEncode .reset, decodeOfEncode .position,
    decodeOfEncode .sum64, decodeOfEncode (.oneshot 0xFFFFFFFFFFFFFFFF 1), decodeOfEncode (.lookup 0xFF),
    rfl, rfl, rfl⟩

/-! ### Legal and illegal words (R64) -/

/-- Settles O4. -/
theorem legalWordsDecode : Obligations.LegalWordsDecode := fun w => by
  constructor
  · intro h
    obtain ⟨i, hi⟩ := exists_cmd_of_wellFormed h
    exact ⟨i, by rw [decode, ← hi, decodeCmd_cmd]⟩
  · rintro ⟨_, h⟩
    exact wellFormed_of_decodeCmd h

theorem exists_decode_eq_error_iff {w : CmdWord} :
    (∃ e, decode w = .error e) ↔ ¬(Cmd.ofWord w).wellFormed = true := by
  rw [legalWordsDecode w]
  cases decode w <;> simp

end Sys2Proof
end

section
/-! What becomes of a command word at the channel (30_encoding.md R64, R66, R71, R72). -/
namespace Sys2Proof.Machine

theorem runCommand_of_decode_error {w : CmdWord} {e : Illegal} (h : decode w = .error e) (s : State) :
    runCommand w s = .next (answered s 0x06 0) := by
  rw [runCommand, h]
  rfl

theorem runCommand_of_decode_ok {w : CmdWord} {i : Instr} (h : decode w = .ok i) (s : State) :
    runCommand w s = exec i s := by
  rw [runCommand, h]

/-- Settles O3: the list of R64 is the negation of `Cmd.wellFormed_iff`, condition by condition. -/
theorem illegalWords : Obligations.IllegalWords := by
  refine fun w => ⟨?_, fun e he s => runCommand_of_decode_error he s⟩
  have hopcode : ¬(1 ≤ (Cmd.ofWord w).opc.toNat ∧ (Cmd.ofWord w).opc.toNat ≤ 8) ↔
      (Cmd.ofWord w).opc.toNat = 0x00 ∨ 0x09 ≤ (Cmd.ofWord w).opc.toNat := by omega
  rw [exists_decode_eq_error_iff, Cmd.wellFormed_iff, extractLsb'_high_operandB]
  rw [not_and_or, hopcode, not_and_or, not_and_or, not_and_or, Classical.not_imp, Classical.not_imp,
    Classical.not_imp]
  rfl

/-! ### The order of commands (R72) -/

theorem commandWords_append (l l' : List HostMove) :
    commandWords (l ++ l') = commandWords l ++ commandWords l' :=
  List.filterMap_append

theorem commandWords_eq_nil {l : List HostMove} (h : ∀ w, .command w ∉ l) : commandWords l = [] := by
  refine List.filterMap_eq_nil_iff.2 fun m hm => ?_
  cases m with
  | command w => exact absurd hm (h w)
  | writeByte | takeOut | takeResponse | blockReset => rfl

/-- Settles O8: a word that waits ahead of an accepted one would have been accepted itself. -/
theorem commandsRunInIssueOrder : Obligations.CommandsRunInIssueOrder := by
  intro s w rest h
  obtain ⟨waiting, later, hhost, rfl, haccepts, hwaits⟩ := nextMove_eq_some h
  obtain ⟨hphase, hbulk⟩ := acceptsCommand_iff.1 haccepts
  have hnone : commandWords waiting = [] := commandWords_eq_nil fun w' hw' =>
    Bool.false_ne_true ((hwaits _ hw').symm.trans haccepts)
  refine ⟨hphase, hbulk, ?_⟩
  rw [hhost, commandWords_append, commandWords_append, hnone]
  rfl

/-! ### The step around exec (R71) -/

theorem acceptsCommand_withFetchWord (s : State) (n w : Nat) :
    acceptsCommand (s.withFetchWord n w) = true := by
  rw [acceptsCommand_iff, withFetchWord_rspPhase, withFetchWord_bulk]
  refine ⟨?_, rfl⟩
  split
  · nofun
  · assumption

/-- A word at the head of the moves runs when commands are accepted. -/
theorem step_of_command_head {s : State} {w : CmdWord} {rest : List HostMove}
    (ha : acceptsCommand s = true) (hhost : s.host = .command w :: rest) :
    step s = runCommand w { s with host := rest } :=
  step_of_nextMove (hhost ▸ nextMove_head (m := .command w) ha)

theorem step_withFetchWord (s : State) (w : CmdWord) :
    step (s.withFetchWord 128 w.toNat) = runCommand w (freeChannel s) := by
  have hword : BitVec.ofNat 128 (w.toNat % 2 ^ 128) = w := by
    rw [Nat.mod_eq_of_lt w.isLt, BitVec.ofNat_toNat, BitVec.setWidth_eq]
  rw [step_of_command_head (acceptsCommand_withFetchWord s 128 w.toNat) rfl, hword]
  rfl

/-- Settles O6. -/
theorem stepRunsTheDecodedCommand : Obligations.StepRunsTheDecodedCommand := by
  intro s w rest i hi
  refine ⟨fun hn => ?_, fun ha hhost => ?_, ?_⟩
  · exact (step_of_nextMove hn).trans (runCommand_of_decode_ok hi _)
  · exact (step_of_command_head ha hhost).trans (runCommand_of_decode_ok hi _)
  · exact (step_withFetchWord s w).trans (runCommand_of_decode_ok hi _)

/-! ### The response (R66) -/

/-- A command on a free channel answers, or is a BULKROLL whose words do not fit OUT (R135). -/
theorem CommandEffect.responds_or_waits {i : Instr} {s t : State} (h : CommandEffect s i t)
    (hb : s.bulk = none) :
    (t.rspPhase = .held ∧ t.bulk = none ∧ (t.rspStatus ≠ 0x00 → t.rspResult = 0)) ∨
      ((∃ stride, i = .bulkroll stride) ∧ t.bulk ≠ none ∧ t.rspPhase = s.rspPhase ∧
        t.rspStatus = s.rspStatus ∧ t.rspResult = s.rspResult) := by
  cases h with
  | fails => exact .inl ⟨rfl, hb, fun _ => rfl⟩
  | reads | creates | rolls | resets => exact .inl ⟨rfl, hb, fun hne => absurd rfl hne⟩
  | streams ws =>
    obtain hwaits | hfits := Nat.lt_or_ge s.outDepth (s.out.length + ws.length)
    · rw [streamOut_waits hwaits]
      exact .inr ⟨⟨_, rfl⟩, nofun, rfl, rfl, rfl⟩
    · rw [streamOut_fits hfits]
      exact .inl ⟨rfl, rfl, fun hne => absurd rfl hne⟩

/-- Settles O9. -/
theorem everyCommandResponds : Obligations.EveryCommandResponds := by
  intro w s t ha h
  obtain ⟨-, hb⟩ := acceptsCommand_iff.1 ha
  obtain ⟨_, -, he⟩ | ⟨i, hi, he⟩ := runCommand_eq (w := w) (s := s)
  · cases he.symm.trans h
    exact .inl ⟨rfl, hb, fun _ => rfl⟩
  · obtain hheld | ⟨⟨stride, rfl⟩, hkept⟩ := (exec_effect (he.symm.trans h)).responds_or_waits hb
    · exact .inl hheld
    · exact .inr ⟨⟨stride, hi⟩, hkept⟩

end Sys2Proof.Machine
end

section
/-! The assembler (30_encoding.md R74, R75). -/
namespace Sys2Proof.Machine

theorem operandField_of_lt {width n : Nat} (h : n < 2 ^ width) :
    operandField width n = some (BitVec.ofNat width n) :=
  if_pos h

theorem operandField_of_le {width n : Nat} (h : 2 ^ width ≤ n) : operandField width n = none :=
  if_neg h.not_gt

theorem assemble_create_eq_none {l w : Nat} (h : ¬(l < 2 ^ 32 ∧ w < 2 ^ 64)) :
    assemble (.create l w) = none := by
  obtain hl | hw := (not_and_or.1 h).imp not_lt.1 not_lt.1
  · rw [assemble, operandField_of_le hl]
  · rw [assemble, operandField_of_le hw]
    cases operandField 32 l <;> rfl

theorem assemble_oneshot_eq_none {start n : Nat} (h : ¬(start < 2 ^ 64 ∧ n < 2 ^ 32)) :
    assemble (.oneshot start n) = none := by
  obtain hs | hn := (not_and_or.1 h).imp not_lt.1 not_lt.1
  · rw [assemble, operandField_of_le hs]
  · rw [assemble, operandField_of_le hn]
    cases operandField 64 start <;> rfl

/-- Settles O59, from the one check of an operand against its field. -/
theorem assemblerRefusesWideOperands : Obligations.AssemblerRefusesWideOperands := by
  refine fun m n => ⟨fun ⟨hm, hn⟩ => ?_, assemble_create_eq_none, fun hm => ⟨?_, ?_⟩, fun hm => ⟨?_, ?_⟩,
    fun ⟨hm, hn⟩ => ?_, assemble_oneshot_eq_none, fun hm => ?_, fun hm => ?_⟩
  · rw [assemble, operandField_of_lt hm, operandField_of_lt hn]
  · rw [assemble, operandField_of_lt hm, Option.map_some]
  · rw [assemble, operandField_of_lt hm, Option.map_some]
  · rw [assemble, operandField_of_le hm, Option.map_none]
  · rw [assemble, operandField_of_le hm, Option.map_none]
  · rw [assemble, operandField_of_lt hm, operandField_of_lt hn]
  · rw [assemble, operandField_of_lt (Nat.lt_succ_of_le hm), Option.map_some]
  · rw [assemble, operandField_of_le (Nat.succ_le_of_lt hm), Option.map_none]

theorem execRoll_illegalRoll {step : Word} {s t : State} (h : execRoll step s = .next t)
    (hstatus : t.rspStatus = 0x02) : s.instValid = true ∧ t = raise .illegalRoll s := by
  obtain ⟨-, rfl⟩ | ⟨hi, -, rfl⟩ | ⟨-, -, _, -, rfl⟩ := execRoll_eq_next h
  · exact absurd hstatus (by decide : Status.noInstance.code ≠ 0x02)
  · exact ⟨hi, rfl⟩
  · exact absurd hstatus (by decide : Status.ok.code ≠ 0x02)

/-- A RESET that leaves INST_VALID at 1 leaves the position at 0 (42_rolling_window.md R104). -/
theorem execReset_pos {s t : State} (h : execReset s = .next t) (hi : t.instValid = true) : t.pos = 0 := by
  obtain ⟨hno, rfl⟩ | ⟨-, _, -, rfl⟩ := execReset_eq_next h
  · exact absurd hi (by simp [hno])
  · rfl

/-- Settles O60. -/
theorem pseudoInstructions : Obligations.PseudoInstructions := by
  refine ⟨rfl, fun n => ?_, fun p => ?_, fun s t u p hreset hroll hstatus => ?_⟩
  · rw [assemble, assemble, operandField_of_lt (n := 0) (by decide)]
    cases operandField 32 n <;> rfl
  · simp only [assemble]
    cases operandField 64 p <;> rfl
  · obtain ⟨hi, hu⟩ := execRoll_illegalRoll hroll hstatus
    rw [hu, raise_pos, execReset_pos hreset hi]

end Sys2Proof.Machine
end

section
/-! The parameters of the block (00_scope.md R8; 40_table_rom.md R81): no command and no move of the host writes
them, and none reads BULK_IMPL (43_bulk_roll.md R134). That BULK_IMPL is not read is an equation per function of
the model: from `withBulkImpl impl s` it stops as it does from `s`, or answers the same value, its state with
BULK_IMPL at `impl`. -/
namespace Sys2Proof.Machine

/-! ### No step writes a parameter -/

/-- The ROM, BUF_CAP, OUT_DEPTH and BULK_IMPL of `t` are those of `s`. -/
def SameParameters (s t : State) : Prop :=
  t.rom = s.rom ∧ t.bufCap = s.bufCap ∧ t.outDepth = s.outDepth ∧ t.bulkImpl = s.bulkImpl

theorem SameParameters.trans {s t u : State} (hst : SameParameters s t) (htu : SameParameters t u) :
    SameParameters s u := by
  obtain ⟨hrom, hcap, hdepth, himpl⟩ := hst
  obtain ⟨hrom', hcap', hdepth', himpl'⟩ := htu
  exact ⟨hrom'.trans hrom, hcap'.trans hcap, hdepth'.trans hdepth, himpl'.trans himpl⟩

theorem CommandEffect.keeps_parameters {i : Instr} {s t : State} (h : CommandEffect s i t) :
    SameParameters s t := by
  cases h with
  | fails | reads | creates | rolls | resets => exact ⟨rfl, rfl, rfl, rfl⟩
  | streams ws =>
    exact ⟨streamOut_rom ws _ s, streamOut_bufCap ws _ s, streamOut_outDepth ws _ s,
      streamOut_bulkImpl ws _ s⟩

/-- The block reset is the one move that writes almost the whole state, and it leaves the parameters. -/
theorem MoveEffect.keeps_parameters {m : HostMove} {s t : State} (h : MoveEffect s m t) :
    SameParameters s t := by
  cases h with
  | command _ h => exact h.keeps_parameters
  | takesOut => exact ⟨takeOut_rom s, takeOut_bufCap s, takeOut_outDepth s, takeOut_bulkImpl s⟩
  | ignores | writes | takesResponse | blockResets => exact ⟨rfl, rfl, rfl, rfl⟩

theorem step_keeps_parameters {s t : State} (h : step s = .next t) : SameParameters s t :=
  step_keeps (P := SameParameters s) (fun _ _ hu => hu) (fun _ _ _ hu hm => hu.trans hm.keeps_parameters)
    ⟨rfl, rfl, rfl, rfl⟩ h

/-! ### No rule reads BULK_IMPL -/

/-- `s` with another value of BULK_IMPL. -/
def withBulkImpl (impl : BulkImpl) (s : State) : State :=
  { s with bulkImpl := impl }

/-- The same outcome, the next state with another value of BULK_IMPL. -/
def outcomeWithBulkImpl (impl : BulkImpl) (r : Result State) : Result State :=
  r.andThen fun t => .next (withBulkImpl impl t)

/-- It enters each branch of a check. -/
theorem outcomeWithBulkImpl_ite (impl : BulkImpl) (p : Prop) [Decidable p] (r r' : Result State) :
    outcomeWithBulkImpl impl (if p then r else r') =
      if p then outcomeWithBulkImpl impl r else outcomeWithBulkImpl impl r' :=
  apply_ite _ p r r'

/-- It goes behind a computation whose value the command writes. -/
theorem outcomeWithBulkImpl_andThen (impl : BulkImpl) {α : Type} (r : Result α) (k : α → Result State) :
    outcomeWithBulkImpl impl (r.andThen k) = r.andThen fun a => outcomeWithBulkImpl impl (k a) :=
  andThen_assoc r k _

theorem streamOut_withBulkImpl (impl : BulkImpl) (ws : List Word) (k : Word) (s : State) :
    streamOut ws k (withBulkImpl impl s) = withBulkImpl impl (streamOut ws k s) := by
  rw [streamOut, streamOut, apply_ite (withBulkImpl impl)]
  rfl

theorem takeOut_withBulkImpl (impl : BulkImpl) (s : State) :
    takeOut (withBulkImpl impl s) = withBulkImpl impl (takeOut s) := by
  cases hb : s.bulk with
  | none => rw [takeOut_of_bulk_none hb, takeOut_of_bulk_none (s := withBulkImpl impl s) hb]; rfl
  | some b =>
    rw [takeOut_of_bulk_some hb, takeOut_of_bulk_some (s := withBulkImpl impl s) hb]
    exact streamOut_withBulkImpl impl b.pending b.count { s with out := s.out.tail }

/-- BULKROLL included: it has one meaning for both values (R134). -/
theorem exec_withBulkImpl (impl : BulkImpl) (i : Instr) (s : State) :
    exec i (withBulkImpl impl s) = outcomeWithBulkImpl impl (exec i s) := by
  have hhash : hashRange (withBulkImpl impl s) = hashRange s :=
    funext₂ (hashRange_congr rfl rfl rfl)
  have hroll : rollSteps (withBulkImpl impl s) = rollSteps s :=
    funext₂ (rollSteps_congr rfl rfl rfl rfl)
  have hwords : bulkWords (withBulkImpl impl s) = bulkWords s :=
    funext fun stride => funext₂
      (bulkWords_congr (s := s) (t := withBulkImpl impl s) rfl rfl rfl rfl rfl stride)
  cases i with
  | create l w =>
    rw [exec_create, exec_create, execCreate, execCreate, hhash, outcomeWithBulkImpl_ite,
      outcomeWithBulkImpl_ite, outcomeWithBulkImpl_andThen]
    rfl
  | roll step =>
    rw [exec_roll, exec_roll, execRoll, execRoll, hroll, outcomeWithBulkImpl_ite, outcomeWithBulkImpl_ite,
      outcomeWithBulkImpl_andThen]
    rfl
  | bulkroll stride =>
    rw [exec_bulkroll, exec_bulkroll, execBulkroll, execBulkroll, hwords, outcomeWithBulkImpl_ite,
      outcomeWithBulkImpl_ite, outcomeWithBulkImpl_andThen]
    simp only [streamOut_withBulkImpl]
    rfl
  | reset =>
    rw [exec_reset, exec_reset, execReset, execReset, hhash, outcomeWithBulkImpl_ite,
      outcomeWithBulkImpl_andThen]
    rfl
  | position => rw [exec_position, exec_position, execPosition, execPosition, outcomeWithBulkImpl_ite]; rfl
  | sum64 => rw [exec_sum64, exec_sum64, execSum64, execSum64, outcomeWithBulkImpl_ite]; rfl
  | oneshot start n =>
    rw [exec_oneshot, exec_oneshot, execOneshot, execOneshot, hhash, outcomeWithBulkImpl_ite,
      outcomeWithBulkImpl_andThen]
    rfl
  | lookup b => rfl

theorem runCommand_withBulkImpl (impl : BulkImpl) (w : CmdWord) (s : State) :
    runCommand w (withBulkImpl impl s) = outcomeWithBulkImpl impl (runCommand w s) := by
  cases hd : decode w with
  | error e => rw [runCommand_of_decode_error hd, runCommand_of_decode_error hd]; rfl
  | ok i => rw [runCommand_of_decode_ok hd, runCommand_of_decode_ok hd, exec_withBulkImpl]

theorem hostWrite_withBulkImpl (impl : BulkImpl) (i : U32) (v : Byte) (s : State) :
    hostWrite i v (withBulkImpl impl s) = outcomeWithBulkImpl impl (hostWrite i v s) := by
  rw [hostWrite, hostWrite, outcomeWithBulkImpl_ite, outcomeWithBulkImpl_ite]
  rfl

theorem applyMove_withBulkImpl (impl : BulkImpl) (m : HostMove) (s : State) :
    applyMove m (withBulkImpl impl s) = outcomeWithBulkImpl impl (applyMove m s) := by
  cases m with
  | command w => exact runCommand_withBulkImpl impl w s
  | writeByte i v => exact hostWrite_withBulkImpl impl i v s
  | takeOut => exact congrArg Host.Outcome.next (takeOut_withBulkImpl impl s)
  | takeResponse | blockReset => rfl

theorem accepts_withBulkImpl (impl : BulkImpl) (s : State) (m : HostMove) :
    accepts (withBulkImpl impl s) m = accepts s m := by
  cases m <;> rfl

theorem nextMove_withBulkImpl (impl : BulkImpl) (s : State) (l : List HostMove) :
    nextMove (withBulkImpl impl s) l = nextMove s l := by
  induction l with
  | nil => rfl
  | cons m l ih => rw [nextMove, nextMove, accepts_withBulkImpl, ih]

theorem step_withBulkImpl (impl : BulkImpl) (s : State) :
    step (withBulkImpl impl s) = outcomeWithBulkImpl impl (step s) := by
  have hmove : nextMove (withBulkImpl impl s) (withBulkImpl impl s).host = nextMove s s.host :=
    nextMove_withBulkImpl impl s s.host
  cases hn : nextMove s s.host with
  | none => rw [step_of_none hn, step_of_none (hmove.trans hn)]; rfl
  | some next =>
    obtain ⟨m, rest⟩ := next
    rw [step_of_nextMove hn, step_of_nextMove (hmove.trans hn)]
    exact applyMove_withBulkImpl impl m { s with host := rest }

/-- Settles O27: every move keeps the parameters, and the equation of `step` reads off each outcome. -/
theorem parametersNeverChange : Obligations.ParametersNeverChange := by
  refine fun s => ⟨fun _ => step_keeps_parameters, fun impl => ?_⟩
  have hsame {r : Result State} (h : step s = r) :
      step (withBulkImpl impl s) = outcomeWithBulkImpl impl r :=
    (step_withBulkImpl impl s).trans (congrArg _ h)
  exact ⟨fun _ => hsame, fun _ => hsame, fun _ => hsame⟩

end Sys2Proof.Machine
end

section
/-! LOOKUP (40_table_rom.md R84). -/
namespace Sys2Proof.Machine

/-- The word of LOOKUP, grouped by the fields of R61, with `B[31:8]` apart from the index. -/
theorem encode_lookup (b : Byte) : encode (.lookup b) = 0#64 ++ 0#24 ++ b ++ 0#24 ++ 0x08#8 := by
  have hb : b.setWidth 32 = 0#24 ++ b := BitVec.setWidth_eq_append (by decide)
  have hassoc : 0#64 ++ (0#24 ++ b) = 0#64 ++ 0#24 ++ b := BitVec.append_assoc.symm
  rw [encode, Instr.cmd, Cmd.toWord, hb]
  exact congrArg (· ++ 0#24 ++ 0x08#8) hassoc

theorem decode_lookup (b : Byte) : decode (0#64 ++ 0#24 ++ b ++ 0#24 ++ 0x08#8) = .ok (.lookup b) := by
  rw [← encode_lookup]
  exact decodeOfEncode (.lookup b)

/-- A LOOKUP word with a bit of A or of `B[31:8]` set is on the list of R64. -/
theorem exists_decode_lookup_eq_error {w : CmdWord} (hopc : w.extractLsb' 0 8 = 0x08#8)
    (hbad : w.extractLsb' 40 24 ≠ 0#24 ∨ w.extractLsb' 64 64 ≠ 0#64) : ∃ e, decode w = .error e := by
  obtain ⟨hillegal, -⟩ := illegalWords w
  rw [hillegal, hopc]
  obtain hb | ha := hbad
  · exact .inr (.inr (.inr (.inr ⟨rfl, hb⟩)))
  · exact .inr (.inr (.inl ⟨by decide, ha⟩))

/-- Settles O10, the illegal forms from the list of R64. -/
theorem lookupRule : Obligations.LookupRule := by
  refine fun s => ⟨fun b => ⟨decode_lookup b, rfl⟩, fun w hopc hbad => ?_⟩
  obtain ⟨_, he⟩ := exists_decode_lookup_eq_error hopc hbad
  exact runCommand_of_decode_error he s

end Sys2Proof.Machine
end

section
/-! The one-shot hash of a sequence of bytes (41_oneshot.md R90 to R93): it is the XOR of the rotated table
words of its positions, in any order, and from 64 bytes on rotations meet again, since `rotl` counts modulo
64. -/
namespace Sys2Proof.Machine

/-! ### The XOR of several words -/

theorem xor_xor_same (x y : Word) : x ^^^ (y ^^^ x) = y := by
  rw [BitVec.xor_comm y, ← BitVec.xor_assoc, BitVec.xor_self, BitVec.zero_xor]

/-- The XOR of the words of a list, 0 for none. -/
def xorAll (words : List Word) : Word :=
  words.foldr (· ^^^ ·) 0

@[simp] theorem xorAll_nil : xorAll [] = 0#64 := rfl

@[simp] theorem xorAll_cons (x : Word) (words : List Word) : xorAll (x :: words) = x ^^^ xorAll words := rfl

@[simp] theorem xorAll_append (words words' : List Word) :
    xorAll (words ++ words') = xorAll words ^^^ xorAll words' := by
  induction words with
  | nil => exact BitVec.zero_xor.symm
  | cons x words ih => rw [List.cons_append, xorAll_cons, xorAll_cons, ih, BitVec.xor_assoc]

theorem xorAll_perm {words words' : List Word} (h : words.Perm words') : xorAll words = xorAll words' :=
  h.foldr_eq 0

/-- A bit of the XOR is the parity of that bit over the words. -/
theorem getMsbD_xorAll (words : List Word) (k : Nat) :
    (xorAll words).getMsbD k = decide (words.countP (·.getMsbD k) % 2 = 1) := by
  induction words with
  | nil => exact BitVec.getMsbD_zero
  | cons x words ih =>
    rw [xorAll_cons, BitVec.getMsbD_xor, ih, List.countP_cons]
    cases x.getMsbD k with
    | false => simp
    | true =>
      obtain heven | hodd := Nat.mod_two_eq_zero_or_one (words.countP (·.getMsbD k))
      · simp [Nat.add_mod, heven]
      · simp [Nat.add_mod, hodd]

/-! ### The terms of the hash (R90) -/

/-- The term of index `i`: its byte's table word, rotated by the number of bytes behind it. -/
def hashTerm (rom : Vector Word 256) (bytes : List Byte) (i : Nat) : Word :=
  rotl (tableWord rom (bytes.getD i 0)) (bytes.length - 1 - i)

theorem hashTerm_cons_zero (rom : Vector Word 256) (c : Byte) (cs : List Byte) :
    hashTerm rom (c :: cs) 0 = rotl (tableWord rom c) cs.length := rfl

/-- A byte in front moves every term one index on and rotates none. -/
theorem hashTerm_cons_succ (rom : Vector Word 256) (c : Byte) (cs : List Byte) (i : Nat) :
    hashTerm rom (c :: cs) (i + 1) = hashTerm rom cs i := by
  have hcount : (c :: cs).length - 1 - (i + 1) = cs.length - 1 - i := by
    rw [List.length_cons]
    omega
  rw [hashTerm, hcount, List.getD_cons_succ, hashTerm]

theorem oneShotHash_eq_xorAll (rom : Vector Word 256) (bytes : List Byte) :
    oneShotHash rom bytes = xorAll ((List.range bytes.length).map (hashTerm rom bytes)) := by
  induction bytes with
  | nil => rfl
  | cons c cs ih =>
    rw [List.length_cons, List.range_succ_eq_map, List.map_cons, List.map_map, xorAll_cons,
      hashTerm_cons_zero, oneShotHash, ih]
    exact congrArg (rotl _ _ ^^^ xorAll ·)
      (List.map_congr_left fun i _ => (hashTerm_cons_succ rom c cs i).symm)

/-- Settles O39: the recursion takes the terms from the first index to the last, and XOR takes them in any
order. -/
theorem oneShotHashIsTheXorOfItsTerms : Obligations.OneShotHashIsTheXorOfItsTerms :=
  fun rom bytes _ horder =>
    (oneShotHash_eq_xorAll rom bytes).trans (xorAll_perm (horder.symm.map (hashTerm rom bytes)))

/-! ### Small cases, append and drop (R91, R92) -/

@[simp] theorem oneShotHash_nil (rom : Vector Word 256) : oneShotHash rom [] = 0#64 := rfl

@[simp] theorem rotl_zero_right (x : Word) : rotl x 0 = x :=
  rotl_of_mod_eq_zero x rfl

theorem rotl_add_sixtyFour (x : Word) (r : Nat) : rotl x (r + 64) = rotl x r := by
  rw [← rotl_rotl, rotl_sixtyFour]

theorem oneShotHash_singleton (rom : Vector Word 256) (c : Byte) :
    oneShotHash rom [c] = tableWord rom c := by
  rw [oneShotHash, List.length_nil, rotl_zero_right, oneShotHash_nil, BitVec.xor_zero]

theorem oneShotHash_pair (rom : Vector Word 256) (c d : Byte) :
    oneShotHash rom [c, d] = rotl (tableWord rom c) 1 ^^^ tableWord rom d := by
  rw [oneShotHash, oneShotHash_singleton, List.length_singleton]

/-- Settles O40. -/
theorem oneShotHashSmallCases : Obligations.OneShotHashSmallCases := fun rom c d =>
  ⟨oneShotHash_nil rom, oneShotHash_singleton rom c, oneShotHash_pair rom c d⟩

/-- The first byte's term, XORed again, leaves the hash of the other bytes. -/
theorem oneShotHash_cons_xor (rom : Vector Word 256) (c : Byte) (cs : List Byte) :
    oneShotHash rom (c :: cs) ^^^ rotl (tableWord rom c) cs.length = oneShotHash rom cs := by
  rw [oneShotHash, BitVec.xor_assoc, xor_xor_same]

/-- Settles O41: the append law is the one of the moving window. -/
theorem appendAndDropLaws : Obligations.AppendAndDropLaws := fun rom bytes c =>
  ⟨oneShotHash_append_singleton rom bytes c, (oneShotHash_cons_xor rom c bytes).symm⟩

/-- The append law for any number of bytes: those in front are rotated by the length of what follows. -/
theorem oneShotHash_append (rom : Vector Word 256) (bytes bytes' : List Byte) :
    oneShotHash rom (bytes ++ bytes') =
      rotl (oneShotHash rom bytes) bytes'.length ^^^ oneShotHash rom bytes' := by
  induction bytes with
  | nil => rw [List.nil_append, oneShotHash_nil, rotl_zero_left, BitVec.zero_xor]
  | cons c cs ih =>
    rw [List.cons_append, oneShotHash, oneShotHash, ih, List.length_append, rotl_xor, rotl_rotl,
      BitVec.xor_assoc]

/-! ### Equal bytes (R93) -/

/-- Two equal bytes 64 apart get the same rotation and cancel. -/
theorem oneShotHash_equal_bytes_cancel (rom : Vector Word 256) (c : Byte) {mid : List Byte}
    (hmid : mid.length = 63) (back : List Byte) :
    oneShotHash rom (c :: mid ++ c :: back) =
      rotl (oneShotHash rom mid) (back.length + 1) ^^^ oneShotHash rom back := by
  have hrotation : (mid ++ c :: back).length = back.length + 64 := by
    rw [List.length_append, List.length_cons, hmid]
    omega
  rw [List.cons_append, oneShotHash, hrotation, rotl_add_sixtyFour, oneShotHash_append, List.length_cons,
    oneShotHash, BitVec.xor_comm _ (oneShotHash rom back),
    ← BitVec.xor_assoc (rotl (oneShotHash rom mid) _), xor_xor_same]

theorem oneShotHash_replicate (rom : Vector Word 256) (n : Nat) (c : Byte) :
    oneShotHash rom (List.replicate n c) = xorAll ((List.range n).map (rotl (tableWord rom c))) := by
  induction n with
  | zero => rfl
  | succ n ih =>
    rw [List.replicate_succ, oneShotHash, List.length_replicate, ih, List.range_succ, List.map_append,
      xorAll_append, BitVec.xor_comm, List.map_singleton, xorAll_cons, xorAll_nil, BitVec.xor_zero]

/-- The 65 rotations of 65 equal bytes: the first and the last are by 0 modulo 64. -/
theorem range_sixtyFive : List.range 65 = 0 :: (List.range' 1 63 ++ [64]) := by
  decide

theorem oneShotHash_replicate_sixtyFive (rom : Vector Word 256) (c : Byte) :
    oneShotHash rom (List.replicate 65 c) = xorAll ((List.range' 1 63).map (rotl (tableWord rom c))) := by
  rw [oneShotHash_replicate, range_sixtyFive, List.map_cons, List.map_append, List.map_singleton,
    xorAll_cons, xorAll_append, xorAll_cons, xorAll_nil, BitVec.xor_zero, rotl_zero_right, rotl_sixtyFour,
    xor_xor_same]

/-- Appending a 65th copy is the same as putting it in front, and both XOR the table word. -/
theorem rotl_one_oneShotHash_replicate_sixtyFour (rom : Vector Word 256) (c : Byte) :
    rotl (oneShotHash rom (List.replicate 64 c)) 1 = oneShotHash rom (List.replicate 64 c) := by
  have hends : oneShotHash rom (List.replicate 64 c ++ [c]) = oneShotHash rom (c :: List.replicate 64 c) :=
    congrArg _ List.replicate_succ'.symm
  rw [oneShotHash_append_singleton, oneShotHash, List.length_replicate, rotl_sixtyFour,
    BitVec.xor_comm] at hends
  exact (BitVec.xor_right_inj _).1 hends

theorem rotl_of_rotl_one {x : Word} (h : rotl x 1 = x) (r : Nat) : rotl x r = x := by
  induction r with
  | zero => exact rotl_zero_right x
  | succ r ih => rw [← rotl_rotl, ih, h]

/-- A word that a rotation by one keeps has its first bit everywhere. -/
theorem eq_of_rotl_one {x : Word} (h : rotl x 1 = x) :
    x = if x.getMsbD 0 then BitVec.allOnes 64 else 0 := by
  have hbit {n : Nat} (hn : n < 64) : x.getMsbD n = x.getMsbD 0 := by
    have hfirst := getMsbD_rotl x n (n := 0) (by decide)
    rw [rotl_of_rotl_one h, Nat.add_zero, Nat.mod_eq_of_lt hn] at hfirst
    exact hfirst.symm
  refine BitVec.eq_of_getMsbD_eq fun n hn => ?_
  rw [hbit hn]
  cases x.getMsbD 0 with
  | true => exact (BitVec.getMsbD_allOnes.trans (decide_eq_true hn)).symm
  | false => exact BitVec.getMsbD_zero.symm

/-- The first bits of the 64 rotations of a word are its bits. -/
theorem countP_getMsbD_rotations (x : Word) :
    ((List.range 64).map (rotl x)).countP (·.getMsbD 0) = (List.range 64).countP x.getLsbD := by
  have hreverse : (List.range 64).map (63 - ·) = (List.range 64).reverse := by decide
  rw [← List.countP_reverse (p := x.getLsbD), ← hreverse, List.countP_map, List.countP_map]
  refine List.countP_congr fun r hr => ?_
  have hr : r < 64 := List.mem_range.1 hr
  simp only [Function.comp_apply, getMsbD_rotl x r (n := 0) (by decide), Nat.add_zero, Nat.mod_eq_of_lt hr]
  simp [BitVec.getMsbD, hr]

theorem oneShotHash_replicate_sixtyFour (rom : Vector Word 256) (c : Byte) :
    oneShotHash rom (List.replicate 64 c) =
      if ((List.range 64).filter fun j => (tableWord rom c).getLsbD j).length % 2 = 0 then 0
      else BitVec.allOnes 64 := by
  rw [eq_of_rotl_one (rotl_one_oneShotHash_replicate_sixtyFour rom c), oneShotHash_replicate, getMsbD_xorAll,
    countP_getMsbD_rotations, List.countP_eq_length_filter]
  obtain heven | hodd := Nat.mod_two_eq_zero_or_one ((List.range 64).filter (tableWord rom c).getLsbD).length
  · rw [heven]; rfl
  · rw [hodd]; rfl

/-- Settles O42: exchanging the pair leaves what `oneShotHash_equal_bytes_cancel` leaves of either. -/
theorem windowsOf64BytesOrMore : Obligations.WindowsOf64BytesOrMore := by
  refine fun rom c d => ⟨oneShotHash_replicate_sixtyFour rom c, oneShotHash_replicate_sixtyFive rom c,
    fun front mid back hmid => ?_⟩
  have hrest (b : Byte) : oneShotHash rom (front ++ b :: mid ++ b :: back) =
      rotl (oneShotHash rom front) (back.length + 65) ^^^
        (rotl (oneShotHash rom mid) (back.length + 1) ^^^ oneShotHash rom back) := by
    have hlen : (b :: mid ++ b :: back).length = back.length + 65 := by
      rw [List.length_append, List.length_cons, List.length_cons, hmid]
      omega
    rw [List.append_assoc, oneShotHash_append, hlen, oneShotHash_equal_bytes_cancel rom b hmid]
  exact (hrest c).trans (hrest d).symm

end Sys2Proof.Machine
end

section
/-! ONESHOT (41_oneshot.md R94). -/
namespace Sys2Proof.Machine

theorem oneshotOutOfRange_iff {s : State} {start : Word} {n : U32} :
    oneshotOutOfRange s start n = true ↔ s.bufCap.toNat < start.toNat + n.toNat :=
  decide_eq_true_iff

theorem execOneshot_of_outOfRange {s : State} {start : Word} {n : U32}
    (h : oneshotOutOfRange s start n = true) : execOneshot start n s = .next (answered s 0x07 0) :=
  if_pos h

theorem execOneshot_of_readRange {s : State} {start : Word} {n : U32} {bytes : List Byte}
    (h : oneshotOutOfRange s start n = false) (hread : readRange s start.toNat n.toNat = .next bytes) :
    execOneshot start n s = .next (answered s 0x00 (oneShotHash s.rom bytes)) := by
  rw [execOneshot, h, hashRange, hread]
  rfl

/-- A word with a bit of RSV set is answered ILLEGAL_COMMAND, whatever its opcode (30_encoding.md R64). -/
theorem runCommand_of_reserved {w : CmdWord} (hrsv : w.extractLsb' 8 24 ≠ 0#24) (s : State) :
    runCommand w s = .next (answered s 0x06 0) := by
  obtain ⟨hillegal, hanswer⟩ := illegalWords w
  obtain ⟨e, he⟩ := hillegal.2 (.inr (.inl hrsv))
  exact hanswer e he s

/-- Settles O11: what the bound refuses, what it lets through, and RSV. -/
theorem oneshotRule : Obligations.OneshotRule := by
  refine fun s start n => ⟨decodeOfEncode (.oneshot start n), fun hout => ?_,
    fun bytes hfits hlen hread => ?_, fun w _ hrsv => runCommand_of_reserved hrsv s⟩
  · exact execOneshot_of_outOfRange (oneshotOutOfRange_iff.2 hout)
  · have hin : oneshotOutOfRange s start n = false :=
      Bool.eq_false_iff.2 fun hout => (oneshotOutOfRange_iff.1 hout).not_ge hfits
    have hbytes := readRange_of_read (by rwa [hlen]) hread
    exact execOneshot_of_readRange hin (by rwa [hlen] at hbytes)

/-- ONESHOT reads BUF, BUF_CAP and the ROM, and writes the response. -/
theorem execOneshot_congr {s u t : State} {start : Word} {n : U32} (hbuf : u.buf = s.buf)
    (hcap : u.bufCap = s.bufCap) (hrom : u.rom = s.rom) (h : execOneshot start n s = .next t) :
    execOneshot start n u = .next (answered u t.rspStatus t.rspResult) := by
  have hbound : oneshotOutOfRange u start n = oneshotOutOfRange s start n := by
    rw [oneshotOutOfRange, oneshotOutOfRange, hcap]
  obtain ⟨hout, rfl⟩ | ⟨hin, bytes, hread, rfl⟩ := execOneshot_eq_next h
  · exact execOneshot_of_outOfRange (hbound.trans hout)
  · rw [execOneshot_of_readRange (hbound.trans hin) ((readRange_congr hbuf hcap _ _).trans hread), hrom]
    rfl

/-- Settles O31: the two commands see BUF, BUF_CAP and the ROM only. -/
theorem oneshotAndLookupIgnoreTheCursor : Obligations.OneshotAndLookupIgnoreTheCursor := by
  rintro i s u t (⟨start, n, rfl⟩ | ⟨b, rfl⟩) hbuf hcap hrom h
  · exact execOneshot_congr hbuf hcap hrom h
  · cases h
    rw [exec_lookup, execLookup, hrom]
    rfl

end Sys2Proof.Machine
end

section
/-! The rolling window (42_rolling_window.md): what CREATE, ROLL and RESET do where their reads of BUF succeed
(R101, R102, R104), and a ROLL that fits gives the one-shot hash of the window it moves to (R107), from the
window hash that single-byte updates carry along. -/
namespace Sys2Proof.Machine

/-! ### The commands where their reads succeed -/

theorem execCreate_of_readRange {l : U32} {w : Word} {s : State} {bytes : List Byte}
    (hl : l.toNat ≤ s.bufCap.toNat) (hw : w.toNat ≤ l.toNat) (hread : readRange s 0 w.toNat = .next bytes) :
    execCreate l w s = .next (respond .ok (oneShotHash s.rom bytes)
      (setInstance l (windowOperand w) (oneShotHash s.rom bytes) s)) := by
  have hrange : createOutOfRange s l = false := decide_eq_false hl.not_gt
  have hwindow : windowTooLong l w = false := decide_eq_false hw.not_gt
  simp [execCreate, hrange, hwindow, hashRange, hread]

theorem execRoll_of_rollSteps {step : Word} {s : State} {c : Working} (hi : s.instValid = true)
    (hend : s.pos.toNat + step.toNat + s.win.toNat ≤ s.len.toNat)
    (hc : rollSteps s step.toNat (s.pos.toNat, s.hash) = .next c) :
    execRoll step s = .next (respond .ok c.2 (setCursor (BitVec.ofNat 32 c.1) c.2 s)) := by
  have hfits : rollPastEnd s step = false := decide_eq_false hend.not_gt
  simp [execRoll, hi, hfits, hc]

theorem execReset_of_readRange {s : State} {bytes : List Byte} (hi : s.instValid = true)
    (hread : readRange s 0 s.win.toNat = .next bytes) :
    execReset s = .next (respond .ok (oneShotHash s.rom bytes)
      (setCursor 0 (oneShotHash s.rom bytes) s)) := by
  simp [execReset, hi, hashRange, hread]

/-! ### A ROLL hashes the window it moves to (R107) -/

@[simp] theorem length_windowBytes (byteAt : Nat → Byte) (p n : Nat) :
    (windowBytes byteAt p n).length = n := by
  simp [windowBytes]

theorem getElem_windowBytes {byteAt : Nat → Byte} {p n k : Nat} (h : k < (windowBytes byteAt p n).length) :
    (windowBytes byteAt p n)[k] = byteAt (p + k) := by
  simp [windowBytes]

theorem readRange_eq_windowBytes {s : State} {byteAt : Nat → Byte} {p n : Nat}
    (hcap : p + n ≤ s.bufCap.toNat) (hread : ∀ i, p ≤ i → i < p + n → s.buf.read i = some (byteAt i)) :
    readRange s p n = .next (windowBytes byteAt p n) := by
  refine readRange_eq_next.2 ⟨length_windowBytes byteAt p n, fun k hk => ?_⟩
  rw [getElem_windowBytes]
  rw [length_windowBytes] at hk
  exact readBuf_eq_next.2 ⟨by omega, hread (p + k) (by omega) (by omega)⟩

theorem WindowHashAt.hash_eq {s : State} {c : Working} {bytes : List Byte} (h : WindowHashAt s c)
    (hread : readRange s c.1 s.win.toNat = .next bytes) : c.2 = oneShotHash s.rom bytes := by
  obtain ⟨window, hwindow, hhash⟩ := h
  cases hwindow.symm.trans hread
  exact hhash

/-- Over written bytes the updates succeed, and the hash they carry is that of the window they end at. -/
theorem rollSteps_eq_windowHash {s : State} {byteAt : Nat → Byte} {p n : Nat} {h : Word}
    (hcap : p + n + s.win.toNat ≤ s.bufCap.toNat)
    (hread : ∀ i, p ≤ i → i < p + n + s.win.toNat → s.buf.read i = some (byteAt i))
    (hh : h = oneShotHash s.rom (windowBytes byteAt p s.win.toNat)) :
    rollSteps s n (p, h) = .next (p + n, oneShotHash s.rom (windowBytes byteAt (p + n) s.win.toNat)) := by
  have hfirst : readRange s p s.win.toNat = .next (windowBytes byteAt p s.win.toNat) :=
    readRange_eq_windowBytes (by omega) fun i hlo hhi => hread i hlo (by omega)
  have hlast : readRange s (p + n) s.win.toNat = .next (windowBytes byteAt (p + n) s.win.toNat) :=
    readRange_eq_windowBytes hcap fun i hlo hhi => hread i (by omega) hhi
  have hsteps := rollSteps_of_read (s := s) (byteAt := byteAt) (h := h) (.inr hcap) fun k hk =>
    ⟨hread (p + k) (by omega) (by omega), hread (p + k + s.win.toNat) (by omega) (by omega)⟩
  have hwindow := rollSteps_keeps_windowHashAt ⟨_, hfirst, hh⟩ hsteps
  rw [hsteps, ← hwindow.hash_eq hlast]

/-- Settles O34: the updates of R100 keep the hash that of the window they stand at. -/
theorem rollGivesTheHashOfTheWindow : Obligations.RollGivesTheHashOfTheWindow := by
  intro s step byteAt hi hend hlen hread hhash
  exact execRoll_of_rollSteps hi hend (rollSteps_eq_windowHash (hend.trans hlen) hread hhash)

end Sys2Proof.Machine
end

section
/-! The commands of the rolling window one by one (42_rolling_window.md R101 to R106): the checks in their
order, the success, and the words that R64 makes illegal; and how ROLL and RESET follow a ROLL and a CREATE. -/
namespace Sys2Proof.Machine

/-! ### Illegal forms of the words (30_encoding.md R64) -/

/-- A bit of B set where R63 marks B "0". -/
theorem runCommand_of_operandB {w : CmdWord}
    (hopc : (w.extractLsb' 0 8).toNat ∈ [0x02, 0x03, 0x04, 0x05, 0x06])
    (hb : w.extractLsb' 32 32 ≠ 0#32) (s : State) : runCommand w s = .next (answered s 0x06 0) := by
  obtain ⟨hillegal, hanswer⟩ := illegalWords w
  obtain ⟨e, he⟩ := hillegal.2 (.inr (.inr (.inr (.inl ⟨hopc, hb⟩))))
  exact hanswer e he s

/-- A bit of A set where R63 marks A "0". -/
theorem runCommand_of_operandA {w : CmdWord} (hopc : (w.extractLsb' 0 8).toNat ∈ [0x04, 0x05, 0x06, 0x08])
    (ha : w.extractLsb' 64 64 ≠ 0#64) (s : State) : runCommand w s = .next (answered s 0x06 0) := by
  obtain ⟨hillegal, hanswer⟩ := illegalWords w
  obtain ⟨e, he⟩ := hillegal.2 (.inr (.inr (.inl ⟨hopc, ha⟩)))
  exact hanswer e he s

/-- RESET, POSITION and SUM64 take no operand: every bit above the opcode is 0. -/
theorem runCommand_of_noOperands {w : CmdWord} (hopc : (w.extractLsb' 0 8).toNat ∈ [0x04, 0x05, 0x06])
    (hbad : w.extractLsb' 64 64 ≠ 0#64 ∨ w.extractLsb' 32 32 ≠ 0#32 ∨ w.extractLsb' 8 24 ≠ 0#24)
    (s : State) : runCommand w s = .next (answered s 0x06 0) := by
  obtain ha | hb | hrsv := hbad
  · exact runCommand_of_operandA (List.mem_append_left [0x08] hopc) ha s
  · exact runCommand_of_operandB (List.mem_append_right [0x02, 0x03] hopc) hb s
  · exact runCommand_of_reserved hrsv s

/-! ### CREATE (R101) -/

/-- The first `n` bytes of BUF, the window CREATE and RESET hash. -/
theorem readRange_zero_of_read {s : State} {n : Nat} {bytes : List Byte} (hcap : n ≤ s.bufCap.toNat)
    (hlen : bytes.length = n) (hread : ∀ k, (h : k < bytes.length) → s.buf.read k = some bytes[k]) :
    readRange s 0 n = .next bytes := by
  subst hlen
  exact readRange_of_read (by rwa [Nat.zero_add]) fun k hk => by rw [Nat.zero_add, hread k hk]

theorem execCreate_of_outOfRange {l : U32} {s : State} (h : s.bufCap.toNat < l.toNat) (w : Word) :
    execCreate l w s = .next (answered s 0x07 0) :=
  if_pos (decide_eq_true h)

theorem execCreate_of_windowTooLong {l : U32} {w : Word} {s : State} (hl : l.toNat ≤ s.bufCap.toNat)
    (hw : l.toNat < w.toNat) : execCreate l w s = .next (answered s 0x01 0) :=
  (if_neg fun hout => (of_decide_eq_true hout).not_ge hl).trans (if_pos (decide_eq_true hw))

/-- Settles O12. -/
theorem createRule : Obligations.CreateRule := by
  refine fun s l w => ⟨decodeOfEncode (.create l w), fun hl => execCreate_of_outOfRange hl w,
    execCreate_of_windowTooLong, fun bytes hl hw hlen hread => ?_,
    fun v _ hrsv => runCommand_of_reserved hrsv s⟩
  have hwin : w.extractLsb' 0 32 = windowOperand w := rfl
  rw [hwin]
  exact execCreate_of_readRange hl hw (readRange_zero_of_read (hw.trans hl) hlen hread)

/-! ### ROLL (R102, R103) -/

theorem execRoll_of_pastEnd {step : Word} {s : State} (hi : s.instValid = true)
    (h : s.len.toNat < s.pos.toNat + step.toNat + s.win.toNat) :
    execRoll step s = .next (answered s 0x02 0) :=
  (if_neg (by simp [hi])).trans (if_pos (decide_eq_true h))

/-- Settles O13. -/
theorem rollRule : Obligations.RollRule := by
  refine fun s step => ⟨decodeOfEncode (.roll step),
    fun hi => exec_cursorCommand_of_not_instValid hi step _ (by simp), execRoll_of_pastEnd,
    fun byteAt hi hend hlen hread => ?_, fun v hopc hbad => ?_⟩
  · exact execRoll_of_rollSteps hi hend (rollSteps_of_read (.inr (hend.trans hlen)) hread)
  · obtain hb | hrsv := hbad
    · exact runCommand_of_operandB (by rw [hopc]; decide) hb s
    · exact runCommand_of_reserved hrsv s

/-- The advances after a ROLL read what those before it read. -/
theorem rollSteps_respond_setCursor (e : Status) (r : Word) (p : U32) (h : Word) (s : State) (n : Nat)
    (c : Working) : rollSteps (respond e r (setCursor p h s)) n c = rollSteps s n c :=
  rollSteps_congr (s := s) (t := respond e r (setCursor p h s)) rfl rfl rfl rfl n c

/-- A ROLL that answers OK: what it passed and what it left. -/
theorem execRoll_ok {step : Word} {s t : State} (h : execRoll step s = .next t) (hok : t.rspStatus = 0x00) :
    s.instValid = true ∧ s.pos.toNat + step.toNat + s.win.toNat ≤ s.len.toNat ∧
      ∃ k, rollSteps s step.toNat (s.pos.toNat, s.hash) = .next (s.pos.toNat + step.toNat, k) ∧
        t = respond .ok k (setCursor (BitVec.ofNat 32 (s.pos.toNat + step.toNat)) k s) := by
  cases exec_effect (i := .roll step) h with
  | fails hne => exact absurd (Status.code_eq_zero.1 hok) hne
  | reads hi => cases hi
  | @rolls _ c hi hend hc =>
    obtain ⟨p, k⟩ := c
    cases rollSteps_position hc
    exact ⟨hi, hend, k, hc, rfl⟩

/-- Settles O32: both advances end at or below LEN, so neither the sum of the steps nor a position wraps. -/
theorem rollsAddUp : Obligations.RollsAddUp := by
  intro s t u a b ha hta hb hub
  obtain ⟨hi, hend, h, hsteps, rfl⟩ := execRoll_ok ha hta
  obtain ⟨-, hend', k, hsteps', rfl⟩ := execRoll_ok hb hub
  have hlen := s.len.isLt
  have hpos : (BitVec.ofNat 32 (s.pos.toNat + a.toNat)).toNat = s.pos.toNat + a.toNat :=
    Nat.mod_eq_of_lt (by omega)
  simp only [respond_pos, setCursor_pos, hpos, rollSteps_respond_setCursor, respond_win, setCursor_win,
    respond_len, setCursor_len, respond_hash, setCursor_hash] at hend' hsteps' ⊢
  have hsum : (a + b).toNat = a.toNat + b.toNat := BitVec.toNat_add_of_lt (by omega)
  have hboth : rollSteps s (a + b).toNat (s.pos.toNat, s.hash) =
      .next (s.pos.toNat + a.toNat + b.toNat, k) := by
    rw [hsum, rollSteps_add, hsteps, andThen_next, hsteps']
  exact execRoll_of_rollSteps hi (by omega) hboth

/-! ### RESET (R104) -/

theorem execReset_execReset {s t : State} (h : execReset s = .next t) : execReset t = .next t := by
  obtain ⟨hi, rfl⟩ | ⟨hi, window, hread, rfl⟩ := execReset_eq_next h
  · exact if_pos hi
  · exact execReset_of_readRange hi (by simpa using hread)

/-- Settles O14. -/
theorem resetRule : Obligations.ResetRule := by
  refine fun s => ⟨decodeOfEncode .reset,
    fun hi => exec_cursorCommand_of_not_instValid hi 0 _ (by simp),
    fun bytes hi hwin hlen hread => ?_, fun t => execReset_execReset,
    fun v hopc hbad => runCommand_of_noOperands (by rw [hopc]; decide) hbad s⟩
  exact execReset_of_readRange hi (readRange_zero_of_read hwin hlen hread)

/-- Settles O33: both commands hash the first window. -/
theorem resetAfterCreateChangesNothing : Obligations.ResetAfterCreateChangesNothing := by
  intro l w s t h hok
  cases exec_effect h with
  | fails hne => exact absurd (Status.code_eq_zero.1 hok) hne
  | reads hi => cases hi
  | @creates _ _ window _ hw hread =>
    exact execReset_of_readRange rfl (by simpa [toNat_windowOperand hw] using hread)

/-! ### POSITION and SUM64 (R105, R106) -/

/-- Settles O15. -/
theorem positionRule : Obligations.PositionRule := by
  intro s
  have hvalue : BitVec.ofNat 64 s.pos.toNat = zext64 s.pos := BitVec.ofNat_toNat 64 s.pos
  refine ⟨decodeOfEncode .position, fun hi => exec_cursorCommand_of_not_instValid hi 0 _ (by simp),
    fun hi => ?_, fun hi hbounds => ?_, ?_,
    fun v hopc hbad => runCommand_of_noOperands (by rw [hopc]; decide) hbad s⟩
  · rw [exec_position, execPosition_eq, hi, hvalue]
    rfl
  · obtain ⟨hwin, -⟩ := hbounds hi
    rw [hvalue, zext64, BitVec.toNat_setWidth_of_le (by decide)]
    omega
  · have hhigh : zext64 s.pos = 0#32 ++ s.pos := BitVec.setWidth_eq_append (by decide)
    rw [hvalue, hhigh, BitVec.extractLsb'_append_eq_left]

theorem execSum64_of_instValid {s : State} (hi : s.instValid = true) :
    execSum64 s = .next (answered s 0x00 s.hash) := by
  rw [execSum64_eq, hi]
  rfl

/-- Settles O16. -/
theorem sum64Rule : Obligations.Sum64Rule := by
  refine fun s => ⟨decodeOfEncode .sum64,
    fun hi => exec_cursorCommand_of_not_instValid hi 0 _ (by simp), execSum64_of_instValid,
    fun hi hwindow => ?_,
    fun v hopc hbad => runCommand_of_noOperands (by rw [hopc]; decide) hbad s⟩
  obtain ⟨window, hread, hhash⟩ := hwindow hi
  exact ⟨window, hread, hhash ▸ execSum64_of_instValid hi⟩

end Sys2Proof.Machine
end

section
/-! What a failing command leaves (42_rolling_window.md R108) and what an empty window hashes to (R109). -/
namespace Sys2Proof.Machine

/-! ### Failures (R108) -/

/-- Settles O24: a command that does not fail answers OK, or waits on the free channel it was accepted on. -/
theorem failureChangesOnlyTheResponse : Obligations.FailureChangesOnlyTheResponse := by
  intro w s t ha h hheld hfailed
  obtain ⟨i, hi⟩ := runCommand_effect h
  obtain ⟨hfree, -⟩ := acceptsCommand_iff.1 ha
  cases hi with
  | fails => rfl
  | reads | creates | rolls | resets => exact absurd rfl hfailed
  | streams ws =>
    obtain hwaits | hfits := Nat.lt_or_ge s.outDepth (s.out.length + ws.length)
    · rw [streamOut_waits hwaits] at hheld
      exact absurd hheld hfree
    · rw [streamOut_fits hfits] at hfailed
      exact absurd rfl hfailed

/-! ### Window size 0 (R109) -/

theorem windowHashAt_of_win_zero {s : State} (hw : s.win = 0) {c : Working} :
    WindowHashAt s c ↔ c.2 = 0 := by
  simp [WindowHashAt, hw, readRange]

/-- Every word the loop of BULKROLL emits is the hash of a window (43_bulk_roll.md R131). -/
theorem bulkWords_windowHashAt {s : State} {stride fuel : Nat} {c : Working} {ws : List Word}
    (hc : WindowHashAt s c) (h : bulkWords s stride fuel c = .next ws) :
    ∀ x ∈ ws, ∃ p, WindowHashAt s (p, x) := by
  induction fuel generalizing c ws with
  | zero =>
    cases h
    exact List.forall_mem_singleton.2 ⟨c.1, hc⟩
  | succ fuel ih =>
    rw [bulkWords] at h
    split at h
    · cases h
      exact List.forall_mem_singleton.2 ⟨c.1, hc⟩
    · simp only [andThen_eq_next, Host.Outcome.next.injEq] at h
      obtain ⟨c', hroll, rest, hrest, rfl⟩ := h
      exact List.forall_mem_cons.2 ⟨⟨c.1, hc⟩, ih (rollSteps_keeps_windowHashAt hc hroll) hrest⟩

/-- The words a BULKROLL emits are those it adds to OUT and those that wait. -/
theorem streamOut_emits (ws : List Word) (k : Word) (s : State) :
    (streamOut ws k s).out.drop s.out.length ++ pendingWords (streamOut ws k s) = ws := by
  rw [← List.drop_append_of_le_length (prefix_streamOut_out ws k s).length_le,
    streamOut_out_append_pending, List.drop_left]

/-- An empty window hashes to 0 wherever it stands: the law of R107 for window size 0. -/
theorem execRoll_of_win_zero {step : Word} {s : State} (hi : s.instValid = true) (hw : s.win = 0)
    (hh : s.hash = 0) (hend : s.pos.toNat + step.toNat ≤ s.len.toNat) (hlen : s.len.toNat ≤ s.bufCap.toNat)
    (hread : ∀ k < step.toNat, s.buf.read (s.pos.toNat + k) ≠ none) :
    execRoll step s =
      .next (answered { s with pos := BitVec.ofNat 32 (s.pos.toNat + step.toNat) } 0x00 0) := by
  have hwin : s.win.toNat = 0 := congrArg BitVec.toNat hw
  have hempty (byteAt : Nat → Byte) (p : Nat) : oneShotHash s.rom (windowBytes byteAt p s.win.toNat) = 0 := by
    rw [hwin]
    rfl
  have hbytes : ∀ i, s.pos.toNat ≤ i → i < s.pos.toNat + step.toNat + s.win.toNat →
      s.buf.read i = some ((s.buf.read i).getD 0) := fun i hlo hhi => by
    obtain ⟨k, rfl⟩ := Nat.exists_eq_add_of_le hlo
    obtain ⟨b, hb⟩ := Option.ne_none_iff_exists'.1 (hread k (by omega))
    rw [hb, Option.getD_some]
  have hroll := rollGivesTheHashOfTheWindow s step _ hi (by rwa [hwin]) hlen hbytes
    (by rw [hempty, hh])
  rw [exec_roll, hempty] at hroll
  rw [hroll, ← hh]

/-- Settles O37: an empty window hashes to 0 wherever it stands, so ROLL follows from the law of R107. -/
theorem windowSizeZeroHashesToZero : Obligations.WindowSizeZeroHashesToZero := by
  refine ⟨fun s l hl => ?_, fun s step hi hw hh hend hlen hread => ?_,
    fun s t stride hi hstride hw hh h => ?_⟩
  · exact execCreate_of_readRange (w := 0) (bytes := []) hl (Nat.zero_le _) rfl
  · exact execRoll_of_win_zero hi hw hh hend hlen hread
  · obtain ⟨hno, -⟩ | ⟨-, hzero, -⟩ | ⟨-, -, ws, hws, rfl⟩ := execBulkroll_eq_next h
    · simp [hi] at hno
    · exact absurd hzero hstride
    · rw [streamOut_emits]
      intro x hx
      obtain ⟨p, hp⟩ := bulkWords_windowHashAt ((windowHashAt_of_win_zero hw).2 hh) hws x hx
      exact (windowHashAt_of_win_zero hw).1 hp

end Sys2Proof.Machine
end

section
/-! BULKROLL (43_bulk_roll.md). The loop of BULKROLL takes `bulkTurns` turns, and its words are known where
the updates of its turns are (`bulkWords_eq_map`): written out for R130, as window hashes for R131. Each turn
is a ROLL, and the loop ends where the next one would fail (`rollsGive_of_bulkWords`, R133). -/
namespace Sys2Proof.Machine

/-! ### The words of the loop (R130) -/

theorem toNat_pos_of_ne_zero {stride : Word} (h : stride ≠ 0#64) : 0 < stride.toNat :=
  Nat.pos_of_ne_zero fun hzero => h (BitVec.eq_of_toNat_eq hzero)

/-- How often the loop of BULKROLL still advances from position `p`: K of R130 is one more. -/
def bulkTurns (s : State) (stride p : Nat) : Nat :=
  (s.len.toNat - s.win.toNat - p) / stride

/-- The loop's own test fails where no turn is left. -/
theorem bulkTurns_eq_zero {s : State} {stride p : Nat} (hs : 0 < stride)
    (h : s.len.toNat < p + stride + s.win.toNat) : bulkTurns s stride p = 0 :=
  Nat.div_eq_of_lt (by omega)

theorem bulkTurns_eq_succ {s : State} {stride p : Nat} (hs : 0 < stride)
    (h : p + stride + s.win.toNat ≤ s.len.toNat) :
    bulkTurns s stride p = bulkTurns s stride (p + stride) + 1 := by
  have hbytes : s.len.toNat - s.win.toNat - p = s.len.toNat - s.win.toNat - (p + stride) + stride := by omega
  rw [bulkTurns, hbytes, Nat.add_div_right _ hs, bulkTurns]

/-- The turns use no more bytes than there are behind the window at `p`. -/
theorem mul_stride_le_of_le_bulkTurns {s : State} {stride p j : Nat} (hj : j ≤ bulkTurns s stride p) :
    j * stride ≤ s.len.toNat - s.win.toNat - p :=
  (Nat.mul_le_mul_right stride hj).trans (Nat.div_mul_le_self _ stride)

/-- The loop emits the hash before each turn and the last one, where `H j` is the hash after `j` turns. -/
theorem bulkWords_eq_map {s : State} {stride fuel p : Nat} {h : Word} {H : Nat → Word} (hs : 0 < stride)
    (hfuel : s.len.toNat - p ≤ fuel)
    (hroll : ∀ j ≤ bulkTurns s stride p, rollSteps s (j * stride) (p, h) = .next (p + j * stride, H j)) :
    bulkWords s stride fuel (p, h) = .next ((List.range (bulkTurns s stride p + 1)).map H) := by
  have hfirst : h = H 0 := by simpa [rollSteps] using hroll 0 (Nat.zero_le _)
  induction fuel generalizing p h H with
  | zero =>
    rw [bulkTurns_eq_zero hs (by omega), hfirst]
    rfl
  | succ fuel ih =>
    rw [bulkWords]
    split
    case isTrue hend =>
      rw [bulkTurns_eq_zero hs hend, hfirst]
      rfl
    case isFalse hturn =>
      have hfits : p + stride + s.win.toNat ≤ s.len.toNat := not_lt.1 hturn
      have hturns := bulkTurns_eq_succ hs hfits
      have hone : rollSteps s stride (p, h) = .next (p + stride, H 1) := by
        simpa using hroll 1 (by omega)
      have hrest : bulkWords s stride fuel (p + stride, H 1) =
          .next ((List.range (bulkTurns s stride (p + stride) + 1)).map (H ∘ Nat.succ)) := by
        refine ih (by omega) (fun j hj => ?_) rfl
        have hsum : (j + 1) * stride = stride + j * stride := by rw [Nat.succ_mul, Nat.add_comm]
        have hmore := hroll (j + 1) (by omega)
        rwa [hsum, rollSteps_add, hone, andThen_next, ← Nat.add_assoc] at hmore
      rw [hone, andThen_next, hrest, andThen_next, hturns, List.range_succ_eq_map (n := _ + 1), List.map_cons,
        List.map_map, hfirst]

theorem execBulkroll_of_bulkWords {stride : Word} {s : State} {ws : List Word} (hi : s.instValid = true)
    (hs : stride ≠ 0#64)
    (hws : bulkWords s stride.toNat (s.len.toNat - s.pos.toNat) (s.pos.toNat, s.hash) = .next ws) :
    execBulkroll stride s = .next (streamOut ws (BitVec.ofNat 64 ws.length) s) := by
  simp [execBulkroll, hi, hs, hws]

/-- BULKROLL streams its K words where the updates of its turns succeed. -/
theorem execBulkroll_eq_streamOut {stride : Word} {s : State} {H : Nat → Word} (hi : s.instValid = true)
    (hs : stride ≠ 0#64)
    (hroll : ∀ j ≤ bulkTurns s stride.toNat s.pos.toNat,
      rollSteps s (j * stride.toNat) (s.pos.toNat, s.hash) = .next (s.pos.toNat + j * stride.toNat, H j)) :
    execBulkroll stride s =
      .next (streamOut ((List.range (bulkTurns s stride.toNat s.pos.toNat + 1)).map H)
        (BitVec.ofNat 64 (bulkTurns s stride.toNat s.pos.toNat + 1)) s) := by
  rw [execBulkroll_of_bulkWords hi hs (bulkWords_eq_map (toNat_pos_of_ne_zero hs) le_rfl hroll),
    List.length_map, List.length_range]

theorem execBulkroll_of_stride_zero {s : State} (hi : s.instValid = true) :
    execBulkroll 0#64 s = .next (answered s 0x03 0) :=
  (if_neg (by simp [hi])).trans (if_pos rfl)

/-- Settles O17: a turn that is taken ends below LEN, so inside BUF. -/
theorem bulkrollRule : Obligations.BulkrollRule := by
  refine fun s stride => ⟨decodeOfEncode (.bulkroll stride),
    fun hi => exec_cursorCommand_of_not_instValid hi stride _ (by simp),
    fun hi hzero => hzero ▸ execBulkroll_of_stride_zero hi, fun byteAt hi hs hlen hread => ?_,
    fun v hopc hbad => ?_⟩
  · intro K words room
    have hwords : execBulkroll stride s = .next (streamOut words (BitVec.ofNat 64 K) s) :=
      execBulkroll_eq_streamOut hi hs fun j hj => by
        have hbytes := mul_stride_le_of_le_bulkTurns hj
        have hupdates : j * stride.toNat ≤ bulkTurns s stride.toNat s.pos.toNat * stride.toNat :=
          Nat.mul_le_mul_right _ hj
        exact rollSteps_of_read (by omega) fun k hk => hread k (hk.trans_le hupdates)
    have hlength : words.length = K := (List.length_map _).trans List.length_range
    rw [exec_bulkroll, hwords, streamOut, hlength]
    rfl
  · obtain hb | hrsv := hbad
    · exact runCommand_of_operandB (by rw [hopc]; decide) hb s
    · exact runCommand_of_reserved hrsv s

/-! ### The windows at POS, POS + stride, ... (R131) -/

/-- Settles O35: the hash after `j` turns is that of the window they end at, and this window fits. -/
theorem bulkrollEmitsTheWindowHashes : Obligations.BulkrollEmitsTheWindowHashes := by
  intro s stride byteAt hi hs hwin hlen hread hhash K words
  have hwords : execBulkroll stride s = .next (streamOut words (BitVec.ofNat 64 K) s) :=
    execBulkroll_eq_streamOut hi hs fun j hj => by
      have hbytes := mul_stride_le_of_le_bulkTurns hj
      exact rollSteps_eq_windowHash (by omega) (fun i hlo hhi => hread i hlo (by omega)) hhash
  have hlength : words.length = K := (List.length_map _).trans List.length_range
  refine ⟨fun hfits => ?_, fun hwaits => ⟨_, hwords, ?_, streamOut_out_append_pending _ _ s⟩⟩
  · rw [exec_bulkroll, hwords, streamOut_fits (by rwa [hlength])]
    rfl
  · rw [streamOut_waits (by rwa [hlength])]

/-! ### Repeated ROLLs (R133) -/

theorem rollsGive_cons {step : Word} {s t : State} {ws : List Word} (h : exec (.roll step) s = .next t)
    (hok : t.rspStatus = 0x00) (hws : RollsGive step t ws) : RollsGive step s (s.hash :: ws) := by
  cases ws with
  | nil => exact hws.elim
  | cons => exact ⟨rfl, t, h, hok, hws⟩

/-- The one check of ROLL is the loop's own test, and its advance is that of a turn. -/
theorem rollsGive_of_bulkWords {stride : Word} {s : State} {fuel : Nat} {ws : List Word}
    (hi : s.instValid = true) (hs : 0 < stride.toNat) (hfuel : s.len.toNat - s.pos.toNat ≤ fuel)
    (h : bulkWords s stride.toNat fuel (s.pos.toNat, s.hash) = .next ws) : RollsGive stride s ws := by
  induction fuel generalizing s ws with
  | zero =>
    cases h
    exact ⟨rfl, execRoll_of_pastEnd hi (by omega)⟩
  | succ fuel ih =>
    rw [bulkWords] at h
    split at h
    case isTrue hend =>
      cases h
      exact ⟨rfl, execRoll_of_pastEnd hi hend⟩
    case isFalse hturn =>
      simp only [andThen_eq_next, Host.Outcome.next.injEq] at h
      obtain ⟨c, hroll, rest, hrest, rfl⟩ := h
      have hend : s.pos.toNat + stride.toNat + s.win.toNat ≤ s.len.toNat := not_lt.1 hturn
      have hposition : c.1 = s.pos.toNat + stride.toNat := rollSteps_position hroll
      have hlen := s.len.isLt
      have hpos : (BitVec.ofNat 32 c.1).toNat = c.1 := Nat.mod_eq_of_lt (by omega)
      refine rollsGive_cons (execRoll_of_rollSteps hi hend hroll) rfl (ih hi ?_ ?_)
      · rw [respond_len, setCursor_len, respond_pos, setCursor_pos, hpos]
        omega
      · rw [respond_pos, setCursor_pos, hpos, respond_hash, setCursor_hash, ← hrest]
        exact bulkWords_congr (s := s) (t := respond .ok c.2 (setCursor _ c.2 s)) rfl rfl rfl rfl rfl _ _ c

/-- Settles O36: the words that are emitted, in OUT or waiting, are those of the loop. -/
theorem bulkrollAgreesWithRoll : Obligations.BulkrollAgreesWithRoll := by
  intro s t stride hi hs h
  obtain ⟨hno, -⟩ | ⟨-, hzero, -⟩ | ⟨-, -, ws, hws, rfl⟩ := execBulkroll_eq_next h
  · simp [hi] at hno
  · exact absurd hzero hs
  · rw [streamOut_emits]
    exact rollsGive_of_bulkWords hi (toNat_pos_of_ne_zero hs) le_rfl hws

/-! ### The cursor stays (R132) -/

/-- `t` has the instance and the cursor of `s`. -/
def SameCursor (s t : State) : Prop :=
  t.instValid = s.instValid ∧ t.len = s.len ∧ t.win = s.win ∧ t.pos = s.pos ∧ t.hash = s.hash

theorem execBulkroll_keeps_cursor {stride : Word} {s t : State} (h : exec (.bulkroll stride) s = .next t) :
    SameCursor s t := by
  obtain ⟨ht, -⟩ := bulkrollFrame stride s t h
  rw [ht]
  exact ⟨rfl, rfl, rfl, rfl, rfl⟩

theorem SameCursor.takeOut {s t : State} (h : SameCursor s t) : SameCursor s (takeOut t) := by
  simpa [SameCursor] using h

theorem SameCursor.repeat_takeOut {s t : State} (h : SameCursor s t) (taken : Nat) :
    SameCursor s (Nat.repeat Machine.takeOut taken t) := by
  induction taken with
  | zero => exact h
  | succ taken ih => exact ih.takeOut

/-- POSITION and SUM64 answer from the instance and the cursor. -/
theorem SameCursor.readResponse_eq {s u p q : State} (h : SameCursor s u) {i : Instr}
    (hi : i ∈ [Instr.position, .sum64]) (hp : exec i s = .next p) (hq : exec i u = .next q) :
    readResponse q = readResponse p := by
  obtain ⟨hvalid, -, -, hpos, hhash⟩ := h
  obtain rfl | rfl : i = .position ∨ i = .sum64 := by simpa using hi
  · rw [exec_position, execPosition_eq] at hp hq
    cases hp
    cases hq
    rw [hvalid, hpos]
    split <;> rfl
  · rw [exec_sum64, execSum64_eq] at hp hq
    cases hp
    cases hq
    rw [hvalid, hhash]
    split <;> rfl

/-- Settles O25: a word taken while the BULKROLL streams moves no cursor either. -/
theorem bulkrollDoesNotMoveTheCursor : Obligations.BulkrollDoesNotMoveTheCursor := by
  rintro stride s t h taken u rfl
  have hsame : SameCursor s (Nat.repeat takeOut taken t) := (execBulkroll_keeps_cursor h).repeat_takeOut taken
  exact ⟨hsame, fun _ hi _ _ => hsame.readResponse_eq hi⟩

end Sys2Proof.Machine
end

section
/-! The host's side of the boundary (44_host_adapter.md). The digest append is the hash of the instance in
bytes (R147). Loading a buffer leaves BUF holding it (20_memory.md R45), and the CREATE behind it runs on that
BUF (R152), so that `create` answers as CREATE does (42_rolling_window.md R101). -/
namespace Sys2Proof.Machine

/-- Settles O57: all of them are constants. -/
theorem adapterConstants : Obligations.AdapterConstants :=
  ⟨rfl, rfl, fun _ => ⟨rfl, rfl, rfl⟩⟩

/-! ### The digest append (R147) -/

theorem adapterSum64_of_instValid {s : State} (hi : s.instValid = true) : adapterSum64 s = some s.hash := by
  rw [adapterSum64, exec_sum64, execSum64_of_instValid hi]
  rfl

theorem adapterSum64_of_not_instValid {s : State} (hi : s.instValid = false) : adapterSum64 s = none := by
  have hsum : exec .sum64 s = .next (answered s 0x05 0) :=
    exec_cursorCommand_of_not_instValid hi 0 .sum64 (by simp)
  rw [adapterSum64, hsum]
  rfl

/-- The bytes of `be8 h` in their order are `h`. -/
theorem append_bytes_eq_self (h : Word) :
    h.extractLsb' 56 8 ++ h.extractLsb' 48 8 ++ h.extractLsb' 40 8 ++ h.extractLsb' 32 8 ++
      h.extractLsb' 24 8 ++ h.extractLsb' 16 8 ++ h.extractLsb' 8 8 ++ h.extractLsb' 0 8 = h := by
  have hjoin (start len : Nat) :
      h.extractLsb' (start + 8) len ++ h.extractLsb' start 8 = h.extractLsb' start (len + 8) :=
    BitVec.extractLsb'_append_extractLsb'_eq_extractLsb' rfl
  rw [hjoin 48, hjoin 40, hjoin 32, hjoin 24, hjoin 16, hjoin 8, hjoin 0]
  exact BitVec.extractLsb'_eq_self

/-- Settles O56: the bytes are those of `be8`. -/
theorem digestAppend : Obligations.DigestAppend := by
  refine fun front s =>
    ⟨fun hi => ⟨_, _, _, _, _, _, _, _, ?_, (append_bytes_eq_self s.hash).symm⟩, fun hi => ?_⟩
  · rw [adapterSum, adapterSum64_of_instValid hi]
    rfl
  · rw [adapterSum, adapterSum64_of_not_instValid hi]
    rfl

/-! ### Loading a buffer (R152) -/

@[simp] theorem length_loadMoves (start : Nat) (bytes : List Byte) :
    (loadMoves start bytes).length = bytes.length := by
  induction bytes generalizing start with
  | nil => rfl
  | cons b bytes ih => simp [loadMoves, ih]

/-- The first bytes of a loaded buffer are read as they are. -/
theorem Loaded.readRange_take {s : State} {bytes : List Byte} {n : Nat} (h : Loaded s bytes)
    (hn : n ≤ bytes.length) : readRange s 0 n = .next (bytes.take n) := by
  obtain ⟨hcap, hread⟩ := h
  refine readRange_zero_of_read (hn.trans hcap) (List.length_take_of_le hn) fun k hk => ?_
  rw [hread k (hk.trans_le (List.length_take_le' _ _)), List.getElem_take]

/-- A write at the head of the moves, with no instance: it changes at most the byte at its index, and BUF
holds that byte where the index exists. -/
theorem step_of_writeByte_head {s : State} {i : U32} {v : Byte} {rest : List HostMove}
    (hi : s.instValid = false) (hb : s.bulk = none) (hhost : s.host = .writeByte i v :: rest) :
    ∃ buf : Memory, step s = .next { s with host := rest, buf := buf } ∧
      (i.toNat < s.bufCap.toNat → buf.read i.toNat = some v) ∧
      ∀ j ≠ i.toNat, buf.read j = s.buf.read j := by
  have haccepts : accepts s (.writeByte i v) = true := by simp [accepts, hb]
  rw [step_of_nextMove (hhost ▸ nextMove_head haccepts), applyMove]
  obtain hcap | hout := Nat.lt_or_ge i.toNat s.bufCap.toNat
  · refine ⟨s.buf.write i.toNat v, hostWrite_free (s := { s with host := rest }) hcap (fun h => ?_) v,
      fun _ => Memory.read_write_same s.buf _ v, fun j hj => Memory.read_write_other v hj⟩
    exact absurd (hi.symm.trans h) Bool.false_ne_true
  · exact ⟨s.buf, hostWrite_outside (s := { s with host := rest }) hout v,
      fun hcap => absurd hcap hout.not_gt, fun _ _ => rfl⟩

/-- The moves that load `bytes` at `start` are all accepted, keep what lies below `start`, and leave the bytes
in BUF if they fit it. -/
theorem run_loadMoves {start : Nat} {bytes : List Byte} {s : State} {rest : List HostMove}
    (hindex : start + bytes.length ≤ 2 ^ 32) (hi : s.instValid = false) (hb : s.bulk = none)
    (hhost : s.host = loadMoves start bytes ++ rest) :
    ∃ buf : Memory,
      (∀ n, Host.Core.run Sys2Proof.core (bytes.length + n) s =
        Host.Core.run Sys2Proof.core n { s with host := rest, buf := buf }) ∧
      (∀ j < start, buf.read j = s.buf.read j) ∧
      (start + bytes.length ≤ s.bufCap.toNat →
        ∀ k, (h : k < bytes.length) → buf.read (start + k) = some bytes[k]) := by
  induction bytes generalizing start s with
  | nil =>
    have hs : { s with host := rest, buf := s.buf } = s := by rw [← hhost.trans (List.nil_append rest)]
    refine ⟨s.buf, fun n => ?_, fun _ _ => rfl, fun _ _ h => absurd h (Nat.not_lt_zero _)⟩
    rw [hs, List.length_nil, Nat.zero_add]
  | cons b bytes ih =>
    rw [List.length_cons] at hindex
    have hstart : (BitVec.ofNat 32 start).toNat = start := Nat.mod_eq_of_lt (by omega)
    obtain ⟨first, hstep, hwritten, hother⟩ := step_of_writeByte_head hi hb hhost
    rw [hstart] at hwritten hother
    obtain ⟨buf, hrun, hbelow, hloaded⟩ :=
      ih (start := start + 1) (s := { s with host := loadMoves (start + 1) bytes ++ rest, buf := first })
        (by omega) hi hb rfl
    refine ⟨buf, fun n => ?_, fun j hj => ?_, fun hcap k hk => ?_⟩
    · rw [List.length_cons, Nat.succ_add]
      exact (core_run_succ hstep).trans (hrun n)
    · rw [hbelow j (by omega), hother j (by omega)]
    · rw [List.length_cons] at hcap
      cases k with
      | zero => exact (hbelow start (by omega)).trans (hwritten (by omega))
      | succ k =>
        have htail := hloaded (by simp only; omega) k (by simpa using hk)
        rwa [Nat.add_assoc, Nat.add_comm 1 k] at htail

theorem step_of_encoded_head {s : State} {i : Instr} {rest : List HostMove} (ha : acceptsCommand s = true)
    (hhost : s.host = .command (encode i) :: rest) : step s = exec i { s with host := rest } :=
  (step_of_command_head ha hhost).trans (runCommand_of_decode_ok (decodeOfEncode i) _)

/-- The moves of `create` end in a CREATE on a state whose BUF holds the buffer, if it fits. -/
theorem run_createMoves {buffer : List Byte} {w : Word} {s : State} {rest : List HostMove}
    (hlen : buffer.length < 2 ^ 32) (hi : s.instValid = false) (ha : acceptsCommand s = true)
    (hhost : s.host =
      loadMoves 0 buffer ++ [.command (encode (.create (BitVec.ofNat 32 buffer.length) w))] ++ rest) :
    ∃ buf : Memory,
      (buffer.length ≤ s.bufCap.toNat → Loaded { s with host := rest, buf := buf } buffer) ∧
      ∀ t, execCreate (BitVec.ofNat 32 buffer.length) w { s with host := rest, buf := buf } = .next t →
        Host.Core.run Sys2Proof.core (buffer.length + 1) s = .next t := by
  obtain ⟨-, hb⟩ := acceptsCommand_iff.1 ha
  obtain ⟨buf, hrun, -, hloaded⟩ :=
    run_loadMoves (by omega) hi hb (hhost.trans (List.append_assoc _ _ _))
  refine ⟨buf, fun hcap => ⟨hcap, fun k hk => ?_⟩, fun t ht => ?_⟩
  · have hread := hloaded (by rwa [Nat.zero_add]) k hk
    rwa [Nat.zero_add] at hread
  · refine (hrun 1).trans (core_run_succ (Eq.trans ?_ ht))
    exact step_of_encoded_head (i := .create _ w) ha rfl

/-- Settles O58: the CREATE behind the loading meets the case of `execCreate` that the lengths decide. -/
theorem loadThenCreate : Obligations.LoadThenCreate := by
  refine fun buffer w => ⟨fun hlen => if_neg hlen.not_gt, fun hlen => ⟨_, if_pos hlen, ?_⟩⟩
  intro s rest hi ha hhost
  obtain ⟨buf, hloaded, hrun⟩ := run_createMoves hlen hi ha hhost
  rw [List.length_append, length_loadMoves, List.length_singleton]
  have hl : (BitVec.ofNat 32 buffer.length).toNat = buffer.length := Nat.mod_eq_of_lt hlen
  obtain hout | hcap := Nat.lt_or_ge s.bufCap.toNat buffer.length
  · exact ⟨_, hrun _ (execCreate_of_outOfRange (by rwa [hl]) w), rfl, fun _ => ⟨hi, rfl⟩,
      fun hcap => absurd hcap hout.not_ge, fun hcap => absurd hcap hout.not_ge⟩
  obtain hlong | hw := Nat.lt_or_ge buffer.length w.toNat
  · exact ⟨_, hrun _ (execCreate_of_windowTooLong (by rwa [hl]) (by rwa [hl])), rfl,
      fun hout => absurd hcap hout.not_ge, fun _ _ => ⟨hloaded hcap, hi, rfl⟩,
      fun _ hw => absurd hw hlong.not_ge⟩
  · have hwindow := (hloaded hcap).readRange_take hw
    exact ⟨_, hrun _ (execCreate_of_readRange (by rwa [hl]) (by rwa [hl]) hwindow), rfl,
      fun hout => absurd hcap hout.not_ge, fun _ hlong => absurd hw hlong.not_ge,
      fun _ _ => ⟨hloaded hcap, rfl, hl, toNat_windowOperand (hw.trans hl.ge), rfl, rfl, rfl⟩⟩

end Sys2Proof.Machine
end

section
/-! What the block reports of a failure: an illegal word at the step (60_exceptions.md R168), and which failure
is reported first (R170). -/
namespace Sys2Proof.Machine

/-- Settles O7: the word at the head of the moves runs, and an illegal word runs to ILLEGAL_COMMAND. -/
theorem illegalWordAnswersIllegalCommand : Obligations.IllegalWordAnswersIllegalCommand :=
  fun _ _ _ _ he ha hhost => (step_of_command_head ha hhost).trans (runCommand_of_decode_error he _)

/-- Settles O19: one case per check of R170, in its order, closed by the lemma of the command that reports it. -/
theorem failurePriority : Obligations.FailurePriority := by
  refine ⟨?illegalCommand, ?noInstance, ?createOutOfRange, ?createWindowTooLong, ?illegalRoll,
    ?illegalStride, ?oneshotOutOfRange⟩
  case illegalCommand => exact fun s _ _ he => runCommand_of_decode_error he s
  case noInstance => exact fun _ a hi => exec_cursorCommand_of_not_instValid hi a
  case createOutOfRange => exact fun _ _ w hout => execCreate_of_outOfRange hout w
  case createWindowTooLong => exact fun _ _ _ hin hlong => execCreate_of_windowTooLong hin hlong
  case illegalRoll => exact fun _ _ hi hend => execRoll_of_pastEnd hi hend
  case illegalStride => exact fun _ hi => execBulkroll_of_stride_zero hi
  case oneshotOutOfRange => exact fun _ _ _ hout => execOneshot_of_outOfRange (oneshotOutOfRange_iff.2 hout)

end Sys2Proof.Machine
end

section
/-! A byte of BUF the host never wrote (70_reset_and_hazards.md R183). A range is refused at its first unwritten
byte, repeated updates of R100 at the first one they read; the loop of BULKROLL is refused where the updates of
all its turns together are (`bulkWords_of_rollSteps_refused`). -/
namespace Sys2Proof.Machine

/-! ### Reads and updates -/

/-- A sequence is refused where its first part is, or its second after a value of the first. -/
theorem andThen_eq_refused {α β : Type} {r : Result α} {k : α → Result β} {e : Refusal} :
    Result.andThen r k = .refused e ↔ r = .refused e ∨ ∃ a, r = .next a ∧ k a = .refused e := by
  cases r <;> simp

theorem readBuf_of_unwritten {s : State} {i : Nat} (hcap : i < s.bufCap.toNat) (h : s.buf.read i = none) :
    readBuf s i = .refused (.unwrittenByte i) := by
  rw [readBuf, if_neg hcap.not_ge, h]

theorem exists_readBuf_of_written {s : State} {i : Nat} (hcap : i < s.bufCap.toNat)
    (h : s.buf.read i ≠ none) : ∃ b, readBuf s i = .next b := by
  obtain ⟨b, hb⟩ := Option.ne_none_iff_exists'.1 h
  exact ⟨b, readBuf_eq_next.2 ⟨hcap, hb⟩⟩

theorem readRange_of_unwritten {s : State} {i n k : Nat} (hcap : i + k < s.bufCap.toNat) (hk : k < n)
    (hwritten : ∀ j < k, s.buf.read (i + j) ≠ none) (h : s.buf.read (i + k) = none) :
    readRange s i n = .refused (.unwrittenByte (i + k)) := by
  induction n generalizing i k with
  | zero => omega
  | succ n ih =>
    cases k with
    | zero =>
      rw [Nat.add_zero] at hcap h ⊢
      rw [readRange, readBuf_of_unwritten hcap h, andThen_refused, Nat.add_zero]
    | succ k =>
      have hindex (j : Nat) : i + (j + 1) = i + 1 + j := by omega
      obtain ⟨b, hb⟩ : ∃ b, readBuf s i = .next b :=
        exists_readBuf_of_written (by omega) (hwritten 0 k.succ_pos)
      rw [hindex] at hcap h ⊢
      have hrest := ih hcap (by omega) (fun j hj => hindex j ▸ hwritten (j + 1) (by omega)) h
      rw [readRange, hb, andThen_next, hrest, andThen_refused]

theorem hashRange_of_unwritten {s : State} {i n k : Nat} (hcap : i + k < s.bufCap.toNat) (hk : k < n)
    (hwritten : ∀ j < k, s.buf.read (i + j) ≠ none) (h : s.buf.read (i + k) = none) :
    hashRange s i n = .refused (.unwrittenByte (i + k)) := by
  rw [hashRange, readRange_of_unwritten hcap hk hwritten h, andThen_refused]

theorem hashRange_zero_of_unwritten {s : State} {n k : Nat} (hcap : k < s.bufCap.toNat) (hk : k < n)
    (hwritten : ∀ j < k, s.buf.read j ≠ none) (h : s.buf.read k = none) :
    hashRange s 0 n = .refused (.unwrittenByte k) := by
  rw [← Nat.zero_add k] at hcap h ⊢
  exact hashRange_of_unwritten hcap hk (fun j hj => by rw [Nat.zero_add]; exact hwritten j hj) h

/-- An update reads the leaving byte first, then the entering one (42_rolling_window.md R100). -/
theorem rollStep_of_firstUnwritten {s : State} {k i : Nat} {h : Word}
    (hcap : s.pos.toNat + k + s.win.toNat < s.bufCap.toNat) (hi : FirstUnwrittenOf s k i) :
    rollStep s (s.pos.toNat + k, h) = .refused (.unwrittenByte i) := by
  obtain ⟨hnone, rfl | ⟨rfl, hleaving⟩⟩ := hi
  · rw [rollStep, readBuf_of_unwritten (by omega) hnone, andThen_refused]
  · obtain ⟨b, hb⟩ := exists_readBuf_of_written (by omega) hleaving
    rw [rollStep, hb, andThen_next, readBuf_of_unwritten hcap hnone, andThen_refused]

/-- The updates before the refused one succeed. -/
theorem rollSteps_of_firstUnwritten {s : State} {n k i : Nat} {h : Word} (hk : k < n)
    (hcap : s.pos.toNat + k + s.win.toNat < s.bufCap.toNat) (hreads : WindowReadsUpTo s k)
    (hi : FirstUnwrittenOf s k i) : rollSteps s n (s.pos.toNat, h) = .refused (.unwrittenByte i) := by
  obtain ⟨m, rfl⟩ := Nat.exists_eq_add_of_lt hk
  have hwritten (a : Nat) (ha : s.buf.read a ≠ none) : s.buf.read a = some ((s.buf.read a).getD 0) := by
    obtain ⟨b, hb⟩ := Option.ne_none_iff_exists'.1 ha
    rw [hb, Option.getD_some]
  have hbefore := rollSteps_of_read (s := s) (h := h) (byteAt := fun a => (s.buf.read a).getD 0)
    (.inr hcap.le) fun j hj => (hreads j hj).imp (hwritten _) (hwritten _)
  rw [Nat.add_assoc, rollSteps_add, hbefore, andThen_next, rollSteps, rollStep_of_firstUnwritten hcap hi,
    andThen_refused]

/-- The turns of the loop are the repeated updates, cut at the emitted words. -/
theorem bulkWords_of_rollSteps_refused {s : State} {stride fuel p : Nat} {h : Word} {e : Refusal}
    (hs : 0 < stride) (hfuel : s.len.toNat - p ≤ fuel)
    (hroll : rollSteps s (bulkTurns s stride p * stride) (p, h) = .refused e) :
    bulkWords s stride fuel (p, h) = .refused e := by
  /- Some turn is left: no updates at all are not refused. -/
  have hturn {p : Nat} {h : Word}
      (hroll : rollSteps s (bulkTurns s stride p * stride) (p, h) = .refused e) :
      p + stride + s.win.toNat ≤ s.len.toNat := by
    by_contra hend
    rw [bulkTurns_eq_zero hs (not_le.1 hend), Nat.zero_mul] at hroll
    cases hroll
  induction fuel generalizing p h with
  | zero =>
    have := hturn hroll
    omega
  | succ fuel ih =>
    have hfits := hturn hroll
    rw [bulkTurns_eq_succ hs hfits, Nat.succ_mul, Nat.add_comm, rollSteps_add] at hroll
    rw [bulkWords, if_neg hfits.not_gt]
    obtain hone | ⟨⟨q, g⟩, hone, hrest⟩ := andThen_eq_refused.1 hroll
    · rw [hone, andThen_refused]
    · obtain rfl : q = p + stride := rollSteps_position hone
      rw [hone, andThen_next, ih (by omega) hrest, andThen_refused]

/-! ### The commands -/

theorem execOneshot_of_hashRange_refused {start : Word} {n : U32} {s : State} {e : Refusal}
    (hcap : start.toNat + n.toNat ≤ s.bufCap.toNat)
    (hread : hashRange s start.toNat n.toNat = .refused e) : execOneshot start n s = .refused e := by
  have hrange : oneshotOutOfRange s start n = false := decide_eq_false hcap.not_gt
  simp [execOneshot, hrange, hread]

theorem execCreate_of_hashRange_refused {l : U32} {w : Word} {s : State} {e : Refusal}
    (hl : l.toNat ≤ s.bufCap.toNat) (hw : w.toNat ≤ l.toNat)
    (hread : hashRange s 0 w.toNat = .refused e) : execCreate l w s = .refused e := by
  have hrange : createOutOfRange s l = false := decide_eq_false hl.not_gt
  have hwindow : windowTooLong l w = false := decide_eq_false hw.not_gt
  simp [execCreate, hrange, hwindow, hread]

theorem execReset_of_hashRange_refused {s : State} {e : Refusal} (hi : s.instValid = true)
    (hread : hashRange s 0 s.win.toNat = .refused e) : execReset s = .refused e := by
  simp [execReset, hi, hread]

theorem execRoll_of_rollSteps_refused {step : Word} {s : State} {e : Refusal} (hi : s.instValid = true)
    (hend : s.pos.toNat + step.toNat + s.win.toNat ≤ s.len.toNat)
    (hroll : rollSteps s step.toNat (s.pos.toNat, s.hash) = .refused e) :
    execRoll step s = .refused e := by
  have hfits : rollPastEnd s step = false := decide_eq_false hend.not_gt
  simp [execRoll, hi, hfits, hroll]

theorem execBulkroll_of_rollSteps_refused {stride : Word} {s : State} {e : Refusal}
    (hi : s.instValid = true) (hs : stride ≠ 0#64)
    (hroll : rollSteps s (bulkTurns s stride.toNat s.pos.toNat * stride.toNat) (s.pos.toNat, s.hash) =
      .refused e) : execBulkroll stride s = .refused e := by
  have hwords := bulkWords_of_rollSteps_refused (toNat_pos_of_ne_zero hs) le_rfl hroll
  simp [execBulkroll, hi, hs, hwords]

/-- Settles O18: ONESHOT, CREATE and RESET read one range, ROLL and BULKROLL what their updates read. -/
theorem unwrittenByteIsRefused : Obligations.UnwrittenByteIsRefused := by
  refine fun s k => ⟨?oneshot, ?create, ?reset, ?roll, ?bulkroll⟩
  case oneshot =>
    intro start n hcap hk hwritten hnone
    exact execOneshot_of_hashRange_refused hcap (hashRange_of_unwritten (by omega) hk hwritten hnone)
  case create =>
    intro l w hl hw hk hwritten hnone
    exact execCreate_of_hashRange_refused hl hw (hashRange_zero_of_unwritten (by omega) hk hwritten hnone)
  case reset =>
    intro hi hcap hk hwritten hnone
    exact execReset_of_hashRange_refused hi (hashRange_zero_of_unwritten (by omega) hk hwritten hnone)
  case roll =>
    intro step i hi hend hlen hk hreads hfirst
    exact execRoll_of_rollSteps_refused hi hend
      (rollSteps_of_firstUnwritten hk (by omega) hreads hfirst)
  case bulkroll =>
    intro stride i hi hs hlen hk hreads hfirst
    have hbytes := mul_stride_le_of_le_bulkTurns (le_refl (bulkTurns s stride.toNat s.pos.toNat))
    have hinside : k < s.len.toNat - s.win.toNat - s.pos.toNat := hk.trans_le hbytes
    exact execBulkroll_of_rollSteps_refused hi hs
      (rollSteps_of_firstUnwritten hk (by omega) hreads hfirst)

end Sys2Proof.Machine
end

section
/-! The hazards of the channels and the reset (70_reset_and_hazards.md): a BULKROLL on a full OUT waits for the
host and each word the host takes lets one in (R186, R189), a held response waits to be taken (R187), and the
block reset ends whatever was in progress (R180, R181). -/
namespace Sys2Proof.Machine

/-! ### A waiting BULKROLL (R186) -/

/-- Settles O45: a BULKROLL in progress closes the command channel and the write port, and there is no response
to take before it ends. -/
theorem streamWaitsForTheHost : Obligations.StreamWaitsForTheHost := by
  rintro s ⟨-, hwait⟩ hbulk hhost
  obtain ⟨b, hb⟩ := Option.ne_none_iff_exists'.1 hbulk
  obtain ⟨-, -, hfree⟩ := hwait b hb
  refine step_of_none (nextMove_eq_none.2 fun m hm => ?_)
  obtain ⟨hout, hreset⟩ := hhost m hm
  cases m with
  | command w => simp [accepts, acceptsCommand, hb]
  | writeByte i v => simp [accepts, hb]
  | takeOut => exact absurd rfl hout
  | takeResponse => simp [accepts, hfree]
  | blockReset => exact absurd rfl hreset

theorem step_of_takeOut_head {s : State} {rest : List HostMove} (hout : s.out ≠ [])
    (hhost : s.host = .takeOut :: rest) : step s = .next (takeOut { s with host := rest }) :=
  step_of_nextMove (hhost ▸ nextMove_head (by simpa [accepts] using hout))

/-- On a full OUT the word taken makes room for the last word that waits, and the response follows. -/
theorem step_of_takeOut_lastWord {s : State} {w k : Word} {rest : List HostMove}
    (hfull : s.out.length = s.outDepth) (hout : s.out ≠ []) (hb : s.bulk = some ⟨[w], k⟩)
    (hhost : s.host = .takeOut :: rest) :
    step s = .next (answered { s with out := s.out.tail ++ [w], bulk := none, host := rest } 0x00 k) := by
  have hfits : s.out.tail.length + [w].length ≤ s.outDepth := by
    have := List.length_pos_iff.2 hout
    simp only [List.length_tail, List.length_singleton]
    omega
  rw [step_of_takeOut_head hout hhost, takeOut_of_bulk_some (s := { s with host := rest }) hb,
    streamOut_fits hfits]
  rfl

/-- On a full OUT the word taken makes room for the first of several words that wait. -/
theorem step_of_takeOut_moreWords {s : State} {w w' k : Word} {ws : List Word} {rest : List HostMove}
    (hfull : s.out.length = s.outDepth) (hout : s.out ≠ []) (hb : s.bulk = some ⟨w :: w' :: ws, k⟩)
    (hhost : s.host = .takeOut :: rest) :
    step s = .next { s with out := s.out.tail ++ [w], bulk := some ⟨w' :: ws, k⟩, host := rest } := by
  have hroom : s.outDepth - s.out.tail.length = 1 := by
    have := List.length_pos_iff.2 hout
    rw [List.length_tail]
    omega
  have hwaits : s.outDepth < s.out.tail.length + (w :: w' :: ws).length := by
    simp only [List.length_cons]
    omega
  rw [step_of_takeOut_head hout hhost, takeOut_of_bulk_some (s := { s with host := rest }) hb,
    streamOut_waits hwaits]
  simp only [hroom, List.take_succ_cons, List.take_zero, List.drop_succ_cons, List.drop_zero]

/-- What a word entering OUT and a word leaving it make together. -/
theorem drop_tail_append_cons {out : List Word} (hout : out ≠ []) (w : Word) (ws : List Word) :
    (out.tail ++ [w] ++ ws).drop ws.length = (out ++ w :: ws).drop (ws.length + 1) := by
  rw [List.append_assoc, List.singleton_append, ← List.tail_append_of_ne_nil hout, List.drop_tail]

/-- Settles O46, by induction on the words that wait. -/
theorem drainingCompletesTheStream : Obligations.DrainingCompletesTheStream := by
  rintro s ⟨ws, k⟩ rest hs hdepth hb hhost
  simp only at hhost ⊢
  induction ws generalizing s with
  | nil => exact absurd rfl (hs.2 _ hb).2.1
  | cons w ws ih =>
    obtain ⟨hfull, -, -⟩ := hs.2 _ hb
    have hout : s.out ≠ [] := List.length_pos_iff.1 (hfull ▸ hdepth)
    rw [List.length_cons, ← drop_tail_append_cons hout]
    cases ws with
    | nil =>
      rw [List.append_nil]
      exact core_run_succ (step_of_takeOut_lastWord hfull hout hb hhost)
    | cons w' ws =>
      have hstep := step_of_takeOut_moreWords hfull hout hb hhost
      exact (core_run_succ hstep).trans
        (ih _ (stepKeepsStreamWellFormed s _ hs hstep) hdepth rfl rfl)

/-! ### A held response (R187) -/

theorem readResponse_eq_none {s : State} : readResponse s = none ↔ s.rspPhase = .empty := by
  unfold readResponse
  split <;> simp [*]

theorem moveEffect_of_nextMove {s t : State} {m : HostMove} {rest : List HostMove}
    (hn : nextMove s s.host = some (m, rest)) (h : step s = .next t) :
    MoveEffect { s with host := rest } m t :=
  applyMove_effect ((accepts_withHost s rest m).trans (nextMove_accepts hn))
    ((step_of_nextMove hn).symm.trans h)

/-- A word taken from OUT leaves the response channel as it is, unless it ends a BULKROLL. -/
theorem takeOut_rspPhase {s : State} (h : s.bulk = none ∨ (takeOut s).bulk ≠ none) :
    (takeOut s).rspPhase = s.rspPhase := by
  cases hb : s.bulk with
  | none => rw [takeOut_of_bulk_none hb]
  | some b =>
    have hends := h.resolve_left (by simp [hb])
    rw [takeOut_of_bulk_some hb] at hends ⊢
    obtain hwaits | hfits :=
      Nat.lt_or_ge s.outDepth (s.out.tail.length + b.pending.length)
    · rw [streamOut_waits hwaits]
    · exact absurd (congrArg State.bulk (streamOut_fits hfits)) hends

/-- While a response is held, a move that is neither its taking nor a block reset leaves it. -/
theorem MoveEffect.keeps_response {m : HostMove} {s t : State} (h : MoveEffect s m t)
    (hp : s.rspPhase = .held) (hb : s.bulk = none) (htake : m ≠ .takeResponse) (hreset : m ≠ .blockReset) :
    (∀ w, m ≠ .command w) ∧ t.rspPhase = .held ∧ readResponse t = readResponse s := by
  cases h with
  | command ha => exact absurd hp (acceptsCommand_iff.1 ha).1
  | ignores | writes => exact ⟨nofun, hp, rfl⟩
  | takesOut =>
    rw [takeOut_of_bulk_none hb]
    exact ⟨nofun, hp, rfl⟩
  | takesResponse => exact absurd rfl htake
  | blockResets => exact absurd rfl hreset

/-- Where there is no response, a move that completes no command brings none. -/
theorem MoveEffect.keeps_no_response {m : HostMove} {s t : State} (h : MoveEffect s m t)
    (hp : s.rspPhase = .empty) (hnone : (s.bulk = none ∧ ∀ w, m ≠ .command w) ∨ t.bulk ≠ none) :
    t.rspPhase = .empty := by
  cases h with
  | @command w i _ ha h =>
    have hwaits : t.bulk ≠ none := hnone.resolve_left fun hno => hno.2 w rfl
    obtain ⟨-, hb, -⟩ | ⟨-, -, hphase, -⟩ := h.responds_or_waits (acceptsCommand_iff.1 ha).2
    · exact absurd hb hwaits
    · exact hphase.trans hp
  | ignores | writes => exact hp
  | takesOut => exact (takeOut_rspPhase (hnone.imp_left And.left)).trans hp
  | takesResponse hheld => exact nomatch hp.symm.trans hheld
  | blockResets => rfl

/-- Settles O47: the move of the step decides, held or none; the other two clauses are about one update each. -/
theorem responseIsHeldUntilTaken : Obligations.ResponseIsHeldUntilTaken := by
  refine ⟨?held, ?taken, ?reset, ?none⟩
  case held =>
    intro s t m rest hp hb hn htake hreset h
    exact (moveEffect_of_nextMove hn h).keeps_response hp hb htake hreset
  case taken =>
    intro s _ hb
    exact ⟨takeResponse s, rfl, acceptsCommand_iff.2 ⟨nofun, hb⟩, rfl⟩
  case reset => exact fun _ => ⟨rfl, rfl⟩
  case none =>
    intro s t hs h hnone
    obtain rfl | ⟨m, rest, hn, hm⟩ := step_effect h
    · exact hs
    · refine readResponse_eq_none.2 (hm.keeps_no_response (readResponse_eq_none.1 hs) ?_)
      exact hnone.imp_left fun ⟨hb, hno⟩ => ⟨hb, fun w hw => hno w rest (hw ▸ hn)⟩

/-! ### The block reset (R180, R181) -/

/-- Settles O48: with no instance every cursor command answers NO_INSTANCE. -/
theorem blockResetState : Obligations.BlockResetState := fun s =>
  ⟨blockReset s, rfl, rfl, rfl, rfl, rfl, fun _ hi => readBuf_of_unwritten hi rfl, rfl, rfl, rfl, rfl, rfl,
    fun a => exec_cursorCommand_of_not_instValid rfl a⟩

end Sys2Proof.Machine
end
